-- ==== Sys2Proof/Word.lean ====
section
/-! DEFINITION. The word of the block: every frame field is one unsigned byte (00_scope.md R5 "Field width", R6). -/

namespace Sys2Proof

/-- A frame field: 8 bits, bit 0 the least significant (R6, R70). -/
abbrev Byte := BitVec 8

end Sys2Proof
end

