-- ==== Sys2Proof/Config.lean ====
section
/-! DEFINITION. What an implementation of the block fixes (00_scope.md R5): the two open parameters as fields of
`Config`, and the constants of R31. `exec`, `step` and `core` run at `Config.standard`, the values R5 gives this hardware;
`execWith`, `stepWith` and `coreWith` take the configuration as an argument (log 6). -/

namespace Sys2Proof

/-- The two parameters the spec leaves open: D9 (`MAX_PARAMS`) and D24 (`HAS_HEXSTR`). -/
structure Config where
  /-- `MAX_PARAMS`: the largest parameter count of any frame and the capacity of PBUF. -/
  maxParams : Nat
  /-- `HAS_HEXSTR`: the hexadecimal formatter is present; without it command code 6 is unassigned (R157). -/
  hasHexstr : Bool
  deriving DecidableEq, Repr

namespace Config

/-- R5: "This spec takes 249 and keeps the name"; `HAS_HEXSTR` is true. -/
def standard : Config := { maxParams := 249, hasHexstr := true }

/-- R5: "A model must require `0 <= MAX_PARAMS <= 253`", so that LENGTH fits in a byte. -/
abbrev Legal (c : Config) : Prop := c.maxParams ≤ 253

/-- `HEADER_BYTE` (R5, R77). -/
def headerByte : Byte := 0xFF#8

/-- `ID_MAX` (R5, R22): the largest legal ID. -/
def idMax : Nat := 0xFE

/-- `BROADCAST_ID` (R5, R89); the block treats it like any other legal ID (R73). -/
def broadcastId : Byte := 0xFE#8

/-- `FRAME_OVERHEAD` (R5, R72): the bytes of a frame that are not parameters. -/
def frameOverhead : Nat := 6

/-- `LENGTH_BIAS` (R5, R71): LENGTH minus the parameter count. -/
def lengthBias : Nat := 2

end Config
end Sys2Proof
end

