-- ==== Sys2Proof/Syntax.lean ====
section
/-! DEFINITION. The block's instructions (30_encoding.md R80, R85): one constructor of `Instr` for each of the fourteen
rows of spec/opcode_table.json, and the form in which the host presents a command. -/

namespace Sys2Proof

/-- R6: the tagged operand, "either `int(v)` with `v : Int`, or `nonint`". -/
inductive Operand where
  | int (v : Int)
  | nonint
  deriving DecidableEq, Repr

/-- R155: HEXSTR's operand is a single `Operand` (an integer, or `nonint`, which stands for "anything that is neither an
integer nor a sequence") or a sequence of `Operand`. -/
inductive HexInput where
  | one (x : Operand)
  | items (xs : List Operand)
  deriving DecidableEq, Repr

/-- The seven protocol opcodes (R80), as the enumeration R137 allows. -/
inductive Opcode where
  | ping | readData | writeData | regWrite | action | reset | syncWrite
  deriving DecidableEq, Repr

/-- The instructions. The first seven constructors are the rows of format FRAME: BUILD with that protocol opcode as its
`instruction` operand (R130 to R136: "the opcode is the `instruction` operand of BUILD"; R137's tagged union; log 9).
The other seven are the commands of R85. -/
inductive Instr where
  | ping (id : Operand) (params : List Operand)
  | readData (id : Operand) (params : List Operand)
  | writeData (id : Operand) (params : List Operand)
  | regWrite (id : Operand) (params : List Operand)
  | action (id : Operand) (params : List Operand)
  | reset (id : Operand) (params : List Operand)
  | syncWrite (id : Operand) (params : List Operand)
  | build (id instruction : Operand) (params : List Operand)
  | toBytes
  | cksum (id ib : Byte) (params : List Byte)
  | parse (frame : List Byte)
  | le16enc (value : Operand)
  | le16dec (low high : Operand)
  | hexstr (x : HexInput)
  deriving DecidableEq, Repr

/-- One operand as the interface carries it (R86): an `Operand`, a sequence of `Operand`, a `Byte` or a sequence of
`Byte`. -/
inductive Arg where
  | val (x : Operand)
  | seq (xs : List Operand)
  | byte (b : Byte)
  | bytes (bs : List Byte)
  deriving DecidableEq, Repr

/-- A command as the host presents it: the 3-bit code and the operand values (R85, and the column "encoding: code;
operands" of the programs of 95_test_vectors.md). DESIGN CHOICE (log 8), safe: the spec fixes no operand transport. -/
structure Command where
  code : BitVec 3
  args : List Arg
  deriving DecidableEq, Repr

end Sys2Proof
end

