-- ==== Sys2Proof/Decode.lean ====
section
/-! DEFINITION. The encoding tables (30_encoding.md R80, R85), the decoder from a presented command to an instruction,
total and rejecting by name, and the encoder. -/

namespace Sys2Proof

/-! ## The protocol opcodes (R80) -/

/-- The rows of the closed set, in the order of R80. -/
def Opcode.all : List Opcode :=
  [.ping, .readData, .writeData, .regWrite, .action, .reset, .syncWrite]

/-- The INSTRUCTION byte of each opcode (R80, R130 to R136). -/
def Opcode.byte : Opcode → Byte
  | .ping      => 0b00000001#8
  | .readData  => 0b00000010#8
  | .writeData => 0b00000011#8
  | .regWrite  => 0b00000100#8
  | .action    => 0b00000101#8
  | .reset     => 0b00000110#8
  | .syncWrite => 0b10000011#8

/-- The opcode's value as the integer an `instruction` operand carries. -/
def Opcode.value (o : Opcode) : Int := (o.byte.toNat : Int)

/-- Membership in the closed set, as "the partial map from `Int` to that enumeration" (R137; R81, R123). -/
def opcodeOf? (v : Int) : Option Opcode := Opcode.all.find? (fun o => decide (o.value = v))

/-- The bounds a row of the look-up table puts on the parameter count. -/
structure Bounds where
  min : Nat
  max : Nat
  deriving DecidableEq, Repr

/-- The opcode look-up table `LUT` (10_state.md R30): a constant; the three rows that say 249 hold `MAX_PARAMS`. -/
def lut (c : Config) : Opcode → Bounds
  | .ping      => ⟨0, 0⟩
  | .readData  => ⟨2, 2⟩
  | .writeData => ⟨2, c.maxParams⟩
  | .regWrite  => ⟨2, c.maxParams⟩
  | .action    => ⟨0, 0⟩
  | .reset     => ⟨0, 0⟩
  | .syncWrite => ⟨4, c.maxParams⟩

/-- The constructor of `Instr` that stands for an opcode. -/
def Opcode.instr (o : Opcode) (id : Operand) (params : List Operand) : Instr :=
  match o with
  | .ping      => .ping id params
  | .readData  => .readData id params
  | .writeData => .writeData id params
  | .regWrite  => .regWrite id params
  | .action    => .action id params
  | .reset     => .reset id params
  | .syncWrite => .syncWrite id params

/-! ## The decoder (R85, R86, R89) -/

/-- Why a presented command is no instruction. -/
inductive DecodeError where
  /-- Code 7, or code 6 without the formatter (R85, R157): the refusal `UnknownCommand` of R198. -/
  | unknownCommand
  /-- The operands do not have the types of the code's row of R85; the interface cannot carry this (R86, log 8). -/
  | operandShape
  deriving DecidableEq, Repr

/-- BUILD with operands `id`, `instruction`, `params`: an `instruction` operand of the closed set selects that opcode's
constructor, any other is the general `build` (log 9). -/
def buildInstr (id instruction : Operand) (params : List Operand) : Instr :=
  match instruction with
  | .nonint => .build id .nonint params
  | .int v =>
    match opcodeOf? v with
    | some o => o.instr id params
    | none => .build id (.int v) params

/-- Does the configuration assign this command code (R85, R157)? -/
def assigned (c : Config) (code : BitVec 3) : Bool :=
  code != 0b111#3 && (code != 0b110#3 || c.hasHexstr)

/-- The operands of each row of R85 ("`parameters` ... (default empty)" for BUILD, R89). -/
def readOperands (code : BitVec 3) (args : List Arg) : Option Instr :=
  match code.toNat, args with
  | 0, [.val id, .val op]            => some (buildInstr id op [])
  | 0, [.val id, .val op, .seq ps]   => some (buildInstr id op ps)
  | 1, []                            => some .toBytes
  | 2, [.byte id, .byte ib, .bytes ps] => some (.cksum id ib ps)
  | 3, [.bytes bs]                   => some (.parse bs)
  | 4, [.val v]                      => some (.le16enc v)
  | 5, [.val l, .val h]              => some (.le16dec l h)
  | 6, [.val x]                      => some (.hexstr (.one x))
  | 6, [.seq xs]                     => some (.hexstr (.items xs))
  | _, _                             => none

/-- The decoder at any configuration: total, rejecting by name. -/
def decodeWith (c : Config) (w : Command) : Except DecodeError Instr :=
  if assigned c w.code then
    match readOperands w.code w.args with
    | some i => .ok i
    | none => .error .operandShape
  else .error .unknownCommand

/-- The decoder of this hardware. -/
def decode (w : Command) : Except DecodeError Instr := decodeWith Config.standard w

/-! ## The encoder -/

/-- The command of a BUILD whose `instruction` operand is the opcode `o`. -/
def encodeOpcode (o : Opcode) (id : Operand) (params : List Operand) : Command :=
  ⟨0b000#3, [.val id, .val (.int o.value), .seq params]⟩

/-- The command of an instruction: the code of R85 and the operands in R85's order. -/
def encode : Instr → Command
  | .ping id ps       => encodeOpcode .ping id ps
  | .readData id ps   => encodeOpcode .readData id ps
  | .writeData id ps  => encodeOpcode .writeData id ps
  | .regWrite id ps   => encodeOpcode .regWrite id ps
  | .action id ps     => encodeOpcode .action id ps
  | .reset id ps      => encodeOpcode .reset id ps
  | .syncWrite id ps  => encodeOpcode .syncWrite id ps
  | .build id op ps   => ⟨0b000#3, [.val id, .val op, .seq ps]⟩
  | .toBytes          => ⟨0b001#3, []⟩
  | .cksum id ib ps   => ⟨0b010#3, [.byte id, .byte ib, .bytes ps]⟩
  | .parse bs         => ⟨0b011#3, [.bytes bs]⟩
  | .le16enc v        => ⟨0b100#3, [.val v]⟩
  | .le16dec l h      => ⟨0b101#3, [.val l, .val h]⟩
  | .hexstr (.one x)  => ⟨0b110#3, [.val x]⟩
  | .hexstr (.items xs) => ⟨0b110#3, [.seq xs]⟩

/-! ## The words of spec/opcode_table.json (log 10) -/

/-- The operands of a command code with every operand zero ("operand words of zeros"), sequences empty. -/
def zeroArgs (code : Nat) : List Arg :=
  match code with
  | 0 => [.val (.int 0), .val (.int 0), .seq []]
  | 2 => [.byte 0#8, .byte 0#8, .bytes []]
  | 3 => [.bytes []]
  | 4 => [.val (.int 0)]
  | 5 => [.val (.int 0), .val (.int 0)]
  | 6 => [.val (.int 0)]
  | _ => []

/-- The command for a word of the opcode table. A word of 8 bits or more that is an INSTRUCTION byte of R80 is a row of
format FRAME: BUILD with that opcode, id 0 and the least number of parameters its row admits, all 0. Any other word
below 8 is a row of format CMD: the command code, every operand zero. The table gives 0x01 to 0x06 to a row of each
format; only `nbits` can tell them apart. DESIGN CHOICE (log 10), safe. -/
def tableCommand (nbits w : Nat) : Option Command :=
  match if 8 ≤ nbits then opcodeOf? (w : Int) else none with
  | some o =>
    some (encodeOpcode o (.int 0) (List.replicate (lut Config.standard o).min (.int 0)))
  | none => if w < 8 then some ⟨BitVec.ofNat 3 w, zeroArgs w⟩ else none

/-- The instruction the decoder reads from a word of the opcode table. -/
def decodeTableWord (nbits w : Nat) : Option Instr :=
  match tableCommand nbits w with
  | some cmd =>
    match decode cmd with
    | .ok i => some i
    | .error _ => none
  | none => none

end Sys2Proof
end

