-- ==== Sys2Proof/Machine/State.lean ====
section
/-! DEFINITION. The state of the block (10_state.md) and the types of what a command answers (60_exceptions.md). -/

namespace Sys2Proof.Machine

/-! ## Outcomes of a command (R190 to R193, R198) -/

/-- The two error kinds (R191). -/
inductive ErrorKind where
  | typeError
  | valueError
  deriving DecidableEq, Repr

/-- The 20 causes of R192. -/
inductive Cause where
  | tId | tInstr | tParam
  | vId | vInstr | vCount | vParam
  | vRxShort | vRxHeader | vRxLength | vRxCount | vRxChecksum | vRxId
  | tLeValue | vLeRange | tLeByte | vLeByte
  | tHexInput | tHexItem | vHexByte
  deriving DecidableEq, Repr

/-- R193: which operand an error record names (column "recorded" of R192). -/
inductive Field where
  | id
  | instruction
  | parameters
  | parameter (k : Nat)
  | frame
  | header
  | length
  | checksum
  | value
  | low
  | high
  | input
  | inputItem (k : Nat)
  deriving DecidableEq, Repr

/-- R193: the actual value an error record reports: "its value, the list of offending values, or the mark
\"non-integer\"". -/
inductive Actual where
  | nonInteger
  | nonIntegerNonSequence
  | int (v : Int)
  | ints (vs : List Int)
  | bytePair (a b : Byte)
  deriving DecidableEq, Repr

/-- R193: the accepted set an error record reports. -/
inductive Domain where
  | integer
  | integerOrSequence
  | range (lo hi : Int)
  | atLeast (lo : Int)
  | exactly (v : Int)
  | opcodes (bs : List Byte)
  | bytePair (a b : Byte)
  deriving DecidableEq, Repr

/-- R193: the info record, "carried for diagnosis"; kind and cause alone are normative (log 12). -/
structure Info where
  field : Field
  actual : Actual
  domain : Domain
  deriving DecidableEq, Repr

/-- An error outcome: its cause, which determines its kind (R192), and its info record. -/
structure ErrorRecord where
  cause : Cause
  info : Info
  deriving DecidableEq, Repr

/-- The two refusals a command can end in (R198). -/
inductive RefusalCause where
  | noPacket
  | unknownCommand
  deriving DecidableEq, Repr

/-- What PARSE returns (R177): "the triple `(id, error_byte, parameters)`". -/
structure Parsed where
  id : Byte
  errorByte : Byte
  params : List Byte
  deriving DecidableEq, Repr

/-- The success results (R85, column "result on success"). HEXSTR's string is a list of characters (log 14). -/
inductive Result where
  | built
  | frame (bs : List Byte)
  | byte (b : Byte)
  | parsed (p : Parsed)
  | bytePair (low high : Byte)
  | value (v : Int)
  | text (cs : List Char)
  deriving DecidableEq, Repr

/-- R190: every command ends in exactly one of these. -/
inductive CmdOutcome where
  | success (r : Result)
  | error (e : ErrorRecord)
  | refusal (r : RefusalCause)
  deriving DecidableEq, Repr

/-! ## The state -/

/-- What the host does next: present a command, or strike the reset input between two commands (R220). -/
inductive HostEvent where
  | command (c : Command)
  | reset
  deriving DecidableEq, Repr

/-- The parameter buffer (R24), as the list of its bytes that differ from the byte an unlisted index holds, by rising
index. -/
abbrev Memory := List Host.Cell

/-- The state: PKT and PBUF (R20), "nothing else" (R7); and the model's own two fields for the inputs and the output of
a step (log 1, log 2). -/
structure State where
  /-- `PKT.VALID`, 1 bit (R21): a packet is held. -/
  valid : Bool
  /-- `PKT.ID` (R22). -/
  id : Byte
  /-- `PKT.INSTR` (R23). -/
  instr : Byte
  /-- `PKT.NP` (R25): the number of parameters held. -/
  np : Byte
  /-- `PBUF` (R24). -/
  pbuf : Memory
  /-- MODEL'S OWN: the events the host is still to issue, the next one first (log 1). -/
  host : List HostEvent
  /-- MODEL'S OWN: the outcome delivered last, `none` after reset (log 2). -/
  outcome : Option CmdOutcome
  deriving DecidableEq, Repr

/-- Why the machine stops with a fault. -/
inductive Fault where
  /-- Raised by BUILD, the opcodes and TOBYTES when an index is not below `MAX_PARAMS`: R55 says that such an index does
  not exist. Safe: no state that meets R29 reaches it (log 13). -/
  | pbufIndex
  deriving DecidableEq, Repr

/-- Why a step has no meaning. -/
inductive Refusal where
  /-- Raised by `exec` for an instruction without a meaning; no instruction of this model is in that case. Safe. -/
  | notModelled (mnemonic : String)
  /-- Raised by `step` for a presented command whose operands do not have the types of its row of R85, which the
  interface cannot carry (R86). Safe (log 8). -/
  | operandShape
  deriving DecidableEq, Repr

/-- The machine right after reset (R37, R221): `PKT.VALID = 0`. The spec leaves ID, INSTR, NP and PBUF unspecified;
DESIGN CHOICE zero, unsafe (log 4). The host has issued nothing and no outcome stands (log 1, log 2). -/
def State.reset : State :=
  { valid := false, id := 0x00#8, instr := 0x00#8, np := 0x00#8, pbuf := [], host := [], outcome := none }

end Sys2Proof.Machine
end

