-- ==== Sys2Proof/Machine/Flags.lean ====
section
/-! DEFINITION. `PKT.VALID`, "the only flag" (10_state.md R32). No condition code, carry or sticky error flag exists: the
checksum discards its carries (R102), and an error leaves no trace (R32). -/

namespace Sys2Proof.Machine

/-- A successful BUILD sets VALID (R21, R120). -/
def setValid (s : State) : State := { s with valid := true }

/-- Reset clears VALID (R221); "no command sets it back to 0" (R21). -/
def clearValid (s : State) : State := { s with valid := false }

end Sys2Proof.Machine
end

