-- ==== Sys2Proof/Machine/Ops.lean ====
section
/-! DEFINITION. The shared operations: PBUF (20_memory.md R55), delivering an outcome (60_exceptions.md), an error as the
block's "trap entry" (R196), and the reset event (70_reset_and_hazards.md R221). -/

namespace Sys2Proof.Machine

/-- What a step answers. -/
abbrev Answer := Host.Outcome State Fault Refusal

/-! ## The parameter buffer -/

/-- What an index of PBUF that was never written holds. The spec leaves it unspecified (R37, U8) and no command reads
it. DESIGN CHOICE 0x00, unsafe (log 5). -/
def unlistedByte : Byte := 0x00#8

/-- The canonical form of a memory: addresses strictly rising, no entry equal to `unlistedByte`. -/
abbrev Memory.wf (m : Memory) : Prop :=
  m.Pairwise (fun x y => x.1 < y.1) ∧ ∀ cell ∈ m, cell.2 ≠ unlistedByte

/-- Every listed index is one of PBUF's `cap` indices. -/
abbrev Memory.within (cap : Nat) (m : Memory) : Prop := ∀ cell ∈ m, cell.1 < cap

/-- The byte at an index. -/
def Memory.read : Memory → Nat → Byte
  | [], _ => unlistedByte
  | (a, b) :: m, k => if a = k then b else Memory.read m k

/-- The memory with one byte replaced; writing `unlistedByte` removes the entry. -/
def Memory.write : Memory → Nat → Byte → Memory
  | [], k, v => if v = unlistedByte then [] else [(k, v)]
  | (a, b) :: m, k, v =>
    if k < a then (if v = unlistedByte then (a, b) :: m else (k, v) :: (a, b) :: m)
    else if k = a then (if v = unlistedByte then m else (k, v) :: m)
    else (a, b) :: Memory.write m k v

/-- `MemRead(PBUF, k, 1)` (R55): "`k` must satisfy `0 <= k < MAX_PARAMS`". -/
def pbufRead (c : Config) (m : Memory) (k : Nat) : Option Byte :=
  if k < c.maxParams then some (m.read k) else none

/-- `MemWrite(PBUF, k, 1, v)` (R55). -/
def pbufWrite (c : Config) (m : Memory) (k : Nat) (v : Byte) : Option Memory :=
  if k < c.maxParams then some (m.write k v) else none

/-- `[MemRead(PBUF, k, 1), ..., MemRead(PBUF, k+n-1, 1)]`, ascending index (R103). -/
def loadParams (c : Config) (m : Memory) (k : Nat) : Nat → Option (List Byte)
  | 0 => some []
  | n + 1 =>
    match pbufRead c m k with
    | none => none
    | some b =>
      match loadParams c m (k + 1) n with
      | none => none
      | some bs => some (b :: bs)

/-- `MemWrite(PBUF, k, 1, p[0])`, `MemWrite(PBUF, k+1, 1, p[1])`, ... (R120, the commit's loop). -/
def storeParams (c : Config) (m : Memory) (k : Nat) : List Byte → Option Memory
  | [] => some m
  | v :: vs =>
    match pbufWrite c m k v with
    | none => none
    | some m' => storeParams c m' (k + 1) vs

/-! ## Outcomes -/

/-- The kind a cause determines (R192). -/
def Cause.kind : Cause → ErrorKind
  | .tId | .tInstr | .tParam | .tLeValue | .tLeByte | .tHexInput | .tHexItem => .typeError
  | .vId | .vInstr | .vCount | .vParam | .vRxShort | .vRxHeader | .vRxLength | .vRxCount | .vRxChecksum | .vRxId
  | .vLeRange | .vLeByte | .vHexByte => .valueError

/-- The numeric code of a cause (R192, first column). -/
def Cause.code : Cause → Byte
  | .tId => 0x01#8
  | .tInstr => 0x02#8
  | .tParam => 0x03#8
  | .vId => 0x11#8
  | .vInstr => 0x12#8
  | .vCount => 0x13#8
  | .vParam => 0x14#8
  | .vRxShort => 0x21#8
  | .vRxHeader => 0x22#8
  | .vRxLength => 0x23#8
  | .vRxCount => 0x24#8
  | .vRxChecksum => 0x25#8
  | .vRxId => 0x26#8
  | .tLeValue => 0x31#8
  | .vLeRange => 0x32#8
  | .tLeByte => 0x33#8
  | .vLeByte => 0x34#8
  | .tHexInput => 0x41#8
  | .tHexItem => 0x42#8
  | .vHexByte => 0x43#8

/-- R191: "Kind codes for a circuit: 0 = success, 1 = TypeError, 2 = ValueError, 3 = refusal". -/
def CmdOutcome.kindCode : CmdOutcome → Nat
  | .success _ => 0
  | .error e =>
    match e.cause.kind with
    | .typeError => 1
    | .valueError => 2
  | .refusal _ => 3

/-- The outcome is handed to the host; nothing else happens (R190). -/
def State.deliver (s : State) (o : CmdOutcome) : State := { s with outcome := some o }

/-- A command that ends in success without writing state. -/
def State.succeed (s : State) (r : Result) : State := s.deliver (.success r)

/-- `raise`, the block's "trap entry" (R196): "Nothing is saved, no mode changes, ... control goes nowhere: the outcome is
handed to the host". There is no return from it (R197): the next command simply runs. -/
def State.raise (s : State) (e : ErrorRecord) : State := s.deliver (.error e)

/-- `refuse` (R198): "returns no result, raises neither error kind and writes no state; the block stays ready for the
next command" (log 3). -/
def State.refuse (s : State) (r : RefusalCause) : State := s.deliver (.refusal r)

/-- A command whose checks gave `r` and which writes no state. -/
def finish (s : State) (r : Except ErrorRecord Result) : Answer :=
  match r with
  | .ok v => .next (s.succeed v)
  | .error e => .next (s.raise e)

/-! ## Reset -/

/-- The reset event (R220, R221): VALID is cleared; ID, INSTR, NP and PBUF become unspecified and take the values
`State.reset` names (log 4); it "has no operand and no outcome" (log 15). -/
def resetEvent (s : State) : State := { clearValid State.reset with host := s.host }

end Sys2Proof.Machine
end

