-- ==== Sys2Proof/Machine/Operands.lean ====
section
/-! DEFINITION. The operand forms and the checks on them that the commands share: the type check, the range check and the
list of offending values (41_instruction_packet.md R121, R125; 42_codecs.md R150, R152, R155). No check truncates,
wraps or clamps (R105). -/

namespace Sys2Proof.Machine

/-- One check: it passes, or it ends the command with its error. -/
def require (passes : Bool) (e : ErrorRecord) : Except ErrorRecord Unit := if passes then .ok () else .error e

/-- The type check of one operand: its value, or the given TypeError. -/
def requireInt (cause : Cause) (field : Field) : Operand → Except ErrorRecord Int
  | .int v => .ok v
  | .nonint => .error ⟨cause, ⟨field, .nonInteger, .integer⟩⟩

/-- The type check of a sequence, ascending index, the first `nonint` deciding (R121, R155); `k` is the index of the
sequence's head. -/
def requireInts (cause : Cause) (field : Nat → Field) (k : Nat) : List Operand → Except ErrorRecord (List Int)
  | [] => .ok []
  | x :: xs => do
    let v ← requireInt cause (field k) x
    let vs ← requireInts cause field (k + 1) xs
    return v :: vs

/-- `lo <= v <= hi`. -/
def inRange (lo hi v : Int) : Bool := decide (lo ≤ v) && decide (v ≤ hi)

/-- A byte-range integer (R75): `0x00 <= v <= 0xFF`. -/
def isByte (v : Int) : Bool := inRange 0x00 0xFF v

/-- R125: the list "of *all* offending values in ascending index order (not only the first)". -/
def offending (vs : List Int) : List Int := vs.filter (fun v => !isByte v)

/-- The byte of an integer that passed the range check. -/
def toByte (v : Int) : Byte := BitVec.ofInt 8 v

/-- The byte-range check of a sequence (R125, R155). -/
def requireBytes (cause : Cause) (field : Field) (vs : List Int) : Except ErrorRecord (List Byte) :=
  if offending vs = [] then .ok (vs.map toByte)
  else .error ⟨cause, ⟨field, .ints (offending vs), .range 0x00 0xFF⟩⟩

end Sys2Proof.Machine
end

