-- ==== Sys2Proof/Machine/Codecs.lean ====
section
/-! DEFINITION. The utility codecs (42_codecs.md): LE16ENC, LE16DEC, HEXSTR. They read and write no state (R157). -/

namespace Sys2Proof.Machine

/-- LE16ENC's function (R150): `(v mod 256, v div 256)` for `0 <= v <= 0xFFFF`. -/
def le16encode (value : Operand) : Except ErrorRecord Result := do
  let v ← requireInt .tLeValue .value value
  if inRange 0 0xFFFF v then .ok (.bytePair (toByte (v % 256)) (toByte (v / 256)))
  else .error ⟨.vLeRange, ⟨.value, .int v, .range 0 0xFFFF⟩⟩

/-- LE16ENC (R150). -/
def execLe16enc (value : Operand) (s : State) : Answer := finish s (le16encode value)

/-- One byte operand of LE16DEC: `V_LE_BYTE` outside `0x00..=0xFF` (R152). -/
def checkLeByte (field : Field) (v : Int) : Except ErrorRecord Int :=
  if isByte v then .ok v else .error ⟨.vLeByte, ⟨field, .int v, .range 0x00 0xFF⟩⟩

/-- LE16DEC's function (R152): `l + 256 * h`; both type checks, then both value checks, low first. -/
def le16decode (low high : Operand) : Except ErrorRecord Result := do
  let l ← requireInt .tLeByte .low low
  let h ← requireInt .tLeByte .high high
  let l ← checkLeByte .low l
  let h ← checkLeByte .high h
  return .value (l + 256 * h)

/-- LE16DEC (R152). -/
def execLe16dec (low high : Operand) (s : State) : Answer := finish s (le16decode low high)

/-- The characters of "0123456789abcdef" (R155). -/
def hexDigits : List Char := ['0', '1', '2', '3', '4', '5', '6', '7', '8', '9', 'a', 'b', 'c', 'd', 'e', 'f']

/-- `hexdigit(d)`, "the d-th character" (R155); every use has `d` in `0..=15`. -/
def hexDigit (d : Nat) : Char := hexDigits.getD d '0'

/-- `tok(b)`: two characters, the high digit first (R155). -/
def hexToken (b : Byte) : List Char := [hexDigit (b.toNat / 16), hexDigit (b.toNat % 16)]

/-- `join(",", tokens)` (R155): no trailing separator, and the empty string for no token. -/
def joinComma : List (List Char) → List Char
  | [] => []
  | [t] => t
  | t :: u :: ts => t ++ ',' :: joinComma (u :: ts)

/-- The items of HEXSTR's operand: "`[x]` if x is a single int, else x" (R155); a single `nonint` is `T_HEX_INPUT`. -/
def hexItems : HexInput → Except ErrorRecord (List Operand)
  | .one .nonint => .error ⟨.tHexInput, ⟨.input, .nonIntegerNonSequence, .integerOrSequence⟩⟩
  | .one (.int v) => .ok [.int v]
  | .items xs => .ok xs

/-- HEXSTR's function (R155): all type checks, then the byte check, then the text. -/
def hexText (x : HexInput) : Except ErrorRecord Result := do
  let xs ← hexItems x
  let vs ← requireInts .tHexItem .inputItem 0 xs
  let bs ← requireBytes .vHexByte .input vs
  return .text (joinComma (bs.map hexToken))

/-- HEXSTR (R155). -/
def execHexstr (x : HexInput) (s : State) : Answer := finish s (hexText x)

end Sys2Proof.Machine
end

