-- ==== Sys2Proof/Machine/PacketBase.lean ====
section
/-! DEFINITION. The packet base (40_packet_base.md): the one checksum, the one LENGTH and the one frame layout, used in
both directions (R106); the commands CKSUM and TOBYTES. -/

namespace Sys2Proof.Machine

/-- `sum(params)`, exact (R6). -/
def sumBytes (params : List Byte) : Nat := (params.map BitVec.toNat).sum

/-- `length(params) = len(params) + 2`, exact (R101). -/
def lengthOf (params : List Byte) : Nat := params.length + Config.lengthBias

/-- `S = id + length + ib + sum(params)`, exact (R100). -/
def checksumSum (id ib : Byte) (params : List Byte) : Nat :=
  id.toNat + lengthOf params + ib.toNat + sumBytes params

/-- `cksum(id, ib, params) = (~S) & 0xFF = 255 - (S mod 256)` (R100, R6). -/
def cksum (id ib : Byte) (params : List Byte) : Byte :=
  BitVec.ofNat 8 (255 - checksumSum id ib params % 256)

/-- The frame of R70: header, header, ID, LENGTH, INSTRUCTION or ERROR, the parameters, CHECKSUM. -/
def frameOf (id ib : Byte) (params : List Byte) : List Byte :=
  [Config.headerByte, Config.headerByte, id, BitVec.ofNat 8 (lengthOf params), ib] ++ params ++ [cksum id ib params]

/-- CKSUM (R100): a byte for every operand; "CKSUM cannot fail". -/
def execCksum (id ib : Byte) (params : List Byte) (s : State) : Answer :=
  finish s (.ok (.byte (cksum id ib params)))

/-- TOBYTES at any configuration (R103): refused with `NoPacket` when no packet is held, else the held packet's frame. -/
def toBytesWith (c : Config) (s : State) : Answer :=
  if s.valid then
    match loadParams c s.pbuf 0 s.np.toNat with
    | some params => .next (s.succeed (.frame (frameOf s.id s.instr params)))
    | none => .fault .pbufIndex
  else .next (s.refuse .noPacket)

/-- TOBYTES (R103). -/
def execToBytes (s : State) : Answer := toBytesWith Config.standard s

end Sys2Proof.Machine
end

