-- ==== Sys2Proof/Machine/InstructionPacket.lean ====
section
/-! DEFINITION. The instruction packet (41_instruction_packet.md): BUILD, its five checks in order and its commit, and
the seven protocol opcodes, each BUILD with that opcode as its `instruction` operand. -/

namespace Sys2Proof.Machine

/-- What a BUILD that passed its checks commits: "stores `dynamixel_id`, `instruction`, `parameters`" (R126). -/
structure PacketFields where
  id : Byte
  op : Opcode
  params : List Byte
  deriving DecidableEq, Repr

/-- Check 2 (R122): `0x00 <= i <= 0xFE`. -/
def checkId (i : Int) : Except ErrorRecord Byte :=
  if inRange 0x00 Config.idMax i then .ok (toByte i)
  else .error ⟨.vId, ⟨.id, .int i, .range 0x00 Config.idMax⟩⟩

/-- Check 3 (R123): membership in the closed set. -/
def checkInstruction (op : Int) : Except ErrorRecord Opcode :=
  match opcodeOf? op with
  | some o => .ok o
  | none => .error ⟨.vInstr, ⟨.instruction, .int op, .opcodes (Opcode.all.map Opcode.byte)⟩⟩

/-- Check 4 (R124): `LUT(op).min <= n <= LUT(op).max`. -/
def checkCount (c : Config) (o : Opcode) (n : Nat) : Except ErrorRecord Unit :=
  if (lut c o).min ≤ n ∧ n ≤ (lut c o).max then .ok ()
  else .error ⟨.vCount, ⟨.parameters, .int n, .range (lut c o).min (lut c o).max⟩⟩

/-- Check 1 (R121): "the operands are examined in the order `id`, `instruction`, `parameters[0]`, ...". -/
def checkTypes (id instruction : Operand) (params : List Operand) : Except ErrorRecord (Int × Int × List Int) := do
  let i ← requireInt .tId .id id
  let op ← requireInt .tInstr .instruction instruction
  let ps ← requireInts .tParam .parameter 0 params
  return (i, op, ps)

/-- Checks 2 to 5 in order (R120) on operands that passed check 1. -/
def checkValues (c : Config) (i op : Int) (ps : List Int) : Except ErrorRecord PacketFields := do
  let id ← checkId i
  let o ← checkInstruction op
  checkCount c o ps.length
  let bs ← requireBytes .vParam .parameters ps
  return ⟨id, o, bs⟩

/-- The five checks of BUILD (R120): a function of the operands alone. -/
def buildChecks (c : Config) (id instruction : Operand) (params : List Operand) : Except ErrorRecord PacketFields := do
  let r ← checkTypes id instruction params
  checkValues c r.1 r.2.1 r.2.2

/-- The registers and the buffer after a commit (R126); VALID is set. -/
def State.hold (s : State) (r : PacketFields) (m : Memory) : State :=
  setValid { s with id := r.id, instr := r.op.byte, np := BitVec.ofNat 8 r.params.length, pbuf := m }

/-- The commit (R126): one transition that writes PKT and `PBUF[0 .. n-1]`. -/
def commit (c : Config) (s : State) (r : PacketFields) : Answer :=
  match storeParams c s.pbuf 0 r.params with
  | some m => .next ((s.hold r m).succeed .built)
  | none => .fault .pbufIndex

/-- BUILD at any configuration (R120): on any failing check nothing is written. -/
def buildWith (c : Config) (id instruction : Operand) (params : List Operand) (s : State) : Answer :=
  match buildChecks c id instruction params with
  | .error e => .next (s.raise e)
  | .ok r => commit c s r

/-- A protocol opcode at any configuration: "the opcode is the `instruction` operand of BUILD" (R130 to R136). -/
def opcodeWith (c : Config) (o : Opcode) (id : Operand) (params : List Operand) (s : State) : Answer :=
  buildWith c id (.int o.value) params s

/-- BUILD (R120). -/
def execBuild (id instruction : Operand) (params : List Operand) (s : State) : Answer :=
  buildWith Config.standard id instruction params s

/-- PING (R130): BUILD with `instruction` 0x01. -/
def execPing (id : Operand) (params : List Operand) (s : State) : Answer :=
  opcodeWith Config.standard .ping id params s

/-- READ_DATA (R131): BUILD with `instruction` 0x02. -/
def execReadData (id : Operand) (params : List Operand) (s : State) : Answer :=
  opcodeWith Config.standard .readData id params s

/-- WRITE_DATA (R132): BUILD with `instruction` 0x03. -/
def execWriteData (id : Operand) (params : List Operand) (s : State) : Answer :=
  opcodeWith Config.standard .writeData id params s

/-- REG_WRITE (R133): BUILD with `instruction` 0x04. -/
def execRegWrite (id : Operand) (params : List Operand) (s : State) : Answer :=
  opcodeWith Config.standard .regWrite id params s

/-- ACTION (R134): BUILD with `instruction` 0x05. -/
def execAction (id : Operand) (params : List Operand) (s : State) : Answer :=
  opcodeWith Config.standard .action id params s

/-- RESET, the protocol opcode (R135): BUILD with `instruction` 0x06; "it has nothing to do with the reset of the
block". -/
def execReset (id : Operand) (params : List Operand) (s : State) : Answer :=
  opcodeWith Config.standard .reset id params s

/-- SYNC_WRITE (R136): BUILD with `instruction` 0x83. -/
def execSyncWrite (id : Operand) (params : List Operand) (s : State) : Answer :=
  opcodeWith Config.standard .syncWrite id params s

end Sys2Proof.Machine
end

