-- ==== Sys2Proof/Machine/StatusDecode.lean ====
section
/-! DEFINITION. The status frame decoder (43_status_decode.md): PARSE, its six checks in the order of D13, and its
result. It reads and writes no state (R170). -/

namespace Sys2Proof.Machine

/-- `B[k]` (R6). Every use below follows check 1 (R171), so that the index exists. -/
def byteAt (B : List Byte) (k : Nat) : Byte := B.getD k 0x00#8

/-- `B[5 .. 5+n]` (R170, R6): the n bytes at indices 5 to 4+n. -/
def paramsOf (B : List Byte) : List Byte := (B.drop 5).take (B.length - Config.frameOverhead)

/-- PARSE's function at any configuration (R170; checks R171 to R176, result R177). -/
def parseFrame (c : Config) (B : List Byte) : Except ErrorRecord Parsed := do
  require (Config.frameOverhead ≤ B.length)
    ⟨.vRxShort, ⟨.frame, .int B.length, .atLeast Config.frameOverhead⟩⟩
  require (byteAt B 0 == Config.headerByte && byteAt B 1 == Config.headerByte)
    ⟨.vRxHeader, ⟨.header, .bytePair (byteAt B 0) (byteAt B 1), .bytePair Config.headerByte Config.headerByte⟩⟩
  require ((byteAt B 3).toNat == B.length - 4)
    ⟨.vRxLength, ⟨.length, .int (byteAt B 3).toNat, .exactly (B.length - 4 : Nat)⟩⟩
  require (B.length - Config.frameOverhead ≤ c.maxParams)
    ⟨.vRxCount, ⟨.parameters, .int (B.length - Config.frameOverhead : Nat), .range 0 c.maxParams⟩⟩
  require (byteAt B (B.length - 1) == cksum (byteAt B 2) (byteAt B 4) (paramsOf B))
    ⟨.vRxChecksum, ⟨.checksum, .int (byteAt B (B.length - 1)).toNat,
      .exactly (cksum (byteAt B 2) (byteAt B 4) (paramsOf B)).toNat⟩⟩
  require ((byteAt B 2).toNat ≤ Config.idMax)
    ⟨.vRxId, ⟨.id, .int (byteAt B 2).toNat, .range 0x00 Config.idMax⟩⟩
  return ⟨byteAt B 2, byteAt B 4, paramsOf B⟩

/-- PARSE at any configuration. -/
def parseWith (c : Config) (B : List Byte) (s : State) : Answer :=
  finish s ((parseFrame c B).map .parsed)

/-- PARSE (R170). -/
def execParse (B : List Byte) (s : State) : Answer := parseWith Config.standard B s

end Sys2Proof.Machine
end

