-- ==== Sys2Proof/Machine/Dispatch.lean ====
section
/-! DEFINITION. One arm per instruction. -/

namespace Sys2Proof.Machine

def exec (i : Instr) (s : State) : Host.Outcome State Fault Refusal :=
  match i with
  | .ping id params => Sys2Proof.Machine.execPing id params s
  | .readData id params => Sys2Proof.Machine.execReadData id params s
  | .writeData id params => Sys2Proof.Machine.execWriteData id params s
  | .regWrite id params => Sys2Proof.Machine.execRegWrite id params s
  | .action id params => Sys2Proof.Machine.execAction id params s
  | .reset id params => Sys2Proof.Machine.execReset id params s
  | .syncWrite id params => Sys2Proof.Machine.execSyncWrite id params s
  | .build id instruction params => Sys2Proof.Machine.execBuild id instruction params s
  | .toBytes => Sys2Proof.Machine.execToBytes s
  | .cksum id ib params => Sys2Proof.Machine.execCksum id ib params s
  | .parse frame => Sys2Proof.Machine.execParse frame s
  | .le16enc value => Sys2Proof.Machine.execLe16enc value s
  | .le16dec low high => Sys2Proof.Machine.execLe16dec low high s
  | .hexstr x => Sys2Proof.Machine.execHexstr x s

end Sys2Proof.Machine
end

