-- ==== Sys2Proof/Machine/Fetch.lean ====
section
/-! DEFINITION. What the block takes from its host at a step (log 1), how a command that is no instruction ends, and how an
event is carried out by a given decoder and given meanings. -/

namespace Sys2Proof.Machine

/-- The next event of the host, and the state in which it is carried out: the event is no longer outstanding. -/
def fetch (s : State) : Option (HostEvent × State) :=
  match s.host with
  | [] => none
  | e :: rest => some (e, { s with host := rest })

/-- A presented command that decodes to no instruction: an unassigned code is refused with `UnknownCommand` (R198), and
operands the interface cannot carry have no meaning (R86, log 8). -/
def undecoded (e : DecodeError) (s : State) : Answer :=
  match e with
  | .unknownCommand => .next (s.refuse .unknownCommand)
  | .operandShape => .refused .operandShape

/-- One step by a decoder and meanings. With nothing presented the block is idle and holds its state (R204); the reset event
is no command and has no outcome (R220); a command runs to its outcome (R27). -/
def carryOut (dec : Command → Except DecodeError Instr) (run : Instr → State → Answer) (s : State) : Answer :=
  match fetch s with
  | none => .next s
  | some (.reset, s') => .next (resetEvent s')
  | some (.command cmd, s') =>
    match dec cmd with
    | .error e => undecoded e s'
    | .ok i => run i s'

/-- `s` with one more command presented first. -/
def present (s : State) (c : Command) : State := { s with host := .command c :: s.host }

end Sys2Proof.Machine
end

