-- ==== Sys2Proof/Machine/Step.lean ====
section
/-! DEFINITION. One step: the block carries out the host's next event (00_scope.md R7; 20_memory.md R56, R58). -/

namespace Sys2Proof.Machine

/-- One step of this hardware. -/
def step (s : State) : Host.Outcome State Fault Refusal := carryOut decode exec s

/-- `s` with the command of a word of the opcode table presented next (log 10, log 11). A word that is no row's is
presented as the unassigned code 7. -/
def State.withFetchWord (s : State) (nbits w : Nat) : State :=
  match tableCommand nbits w with
  | some cmd => present s cmd
  | none => present s ⟨0b111#3, []⟩

end Sys2Proof.Machine
end

