-- ==== Sys2Proof/Machine/Configured.lean ====
section
/-! DEFINITION. The block at any configuration: "the model takes `MAX_PARAMS` as an argument with default 249"
(93_implementation_defined.md U1; R5, D9; D24 for `HAS_HEXSTR`). `Config.Legal` is the constraint. At `Config.standard` it
is `exec`, `step` and `core`, which run this hardware (log 6). -/

namespace Sys2Proof.Machine

/-- Every instruction at configuration `c`: BUILD, its opcodes, TOBYTES and PARSE know `MAX_PARAMS`, HEXSTR is refused where
it is absent (R157), and the others know no parameter. -/
def execWith (c : Config) (i : Instr) (s : State) : Answer :=
  match i with
  | .ping id params => opcodeWith c .ping id params s
  | .readData id params => opcodeWith c .readData id params s
  | .writeData id params => opcodeWith c .writeData id params s
  | .regWrite id params => opcodeWith c .regWrite id params s
  | .action id params => opcodeWith c .action id params s
  | .reset id params => opcodeWith c .reset id params s
  | .syncWrite id params => opcodeWith c .syncWrite id params s
  | .build id instruction params => buildWith c id instruction params s
  | .toBytes => toBytesWith c s
  | .cksum id ib params => execCksum id ib params s
  | .parse frame => parseWith c frame s
  | .le16enc value => execLe16enc value s
  | .le16dec low high => execLe16dec low high s
  | .hexstr x => if c.hasHexstr then execHexstr x s else .next (s.refuse .unknownCommand)

/-- One step at configuration `c`. -/
def stepWith (c : Config) (s : State) : Answer := carryOut (decodeWith c) (execWith c) s

/-- The machine at configuration `c`. -/
def coreWith (c : Config) : Host.Core :=
  { State := State, Fault := Fault, Refusal := Refusal, step := stepWith c, reset := State.reset }

end Sys2Proof.Machine
end

