-- ==== Sys2Proof/Safety.lean ====
section
/-! DEFINITION. What the claims mean by a good state, by a state's readable part, and by a well-presented host. -/

namespace Sys2Proof.Machine

/-- The packet invariant of 10_state.md R29 at any configuration. (Every byte of PBUF lies in `0x00..=0xFF` by type.) -/
abbrev HeldPacketLegal (c : Config) (s : State) : Prop :=
  s.id.toNat ≤ Config.idMax ∧
  (∃ o ∈ Opcode.all, s.instr = o.byte ∧ (lut c o).min ≤ s.np.toNat ∧ s.np.toNat ≤ (lut c o).max) ∧
  s.np.toNat ≤ c.maxParams

/-- The invariant every step keeps: PBUF is canonical data over its own indices, and a held packet meets R29. -/
abbrev StateInv (c : Config) (s : State) : Prop :=
  s.pbuf.wf ∧ s.pbuf.within c.maxParams ∧ (s.valid = true → HeldPacketLegal c s)

/-- The parameters the registers describe: `[PBUF[0], .., PBUF[NP-1]]` (R26). -/
def heldParams (s : State) : List Byte := (List.range s.np.toNat).map s.pbuf.read

/-- The part of two states a command may read (R21, R24, R34): VALID, the host's events, and, while a packet is held, ID,
INSTR, NP and the first NP bytes of PBUF. -/
def SameReadable (s t : State) : Prop :=
  s.valid = t.valid ∧ s.host = t.host ∧
  (s.valid = true → s.id = t.id ∧ s.instr = t.instr ∧ s.np = t.np ∧ heldParams s = heldParams t)

/-- The packet registers and buffer of two states are equal: everything the spec calls state (R20). -/
def SamePacket (s t : State) : Prop :=
  s.valid = t.valid ∧ s.id = t.id ∧ s.instr = t.instr ∧ s.np = t.np ∧ s.pbuf = t.pbuf

/-- The host presents only what the interface can carry (R86): no command with operands of the wrong types. -/
def WellPresented (s : State) : Prop :=
  ∀ cmd, HostEvent.command cmd ∈ s.host → decode cmd ≠ .error .operandShape

/-- The operand `int(b)` of a byte. -/
def byteOperand (b : Byte) : Operand := .int b.toNat

/-- The operands of an instruction that carry a tag (R6, R85): those a type check looks at. -/
def operandsOf : Instr → List Operand
  | .ping id ps | .readData id ps | .writeData id ps | .regWrite id ps | .action id ps | .reset id ps
  | .syncWrite id ps => id :: ps
  | .build id op ps => id :: op :: ps
  | .toBytes | .cksum _ _ _ | .parse _ => []
  | .le16enc v => [v]
  | .le16dec l h => [l, h]
  | .hexstr (.one x) => [x]
  | .hexstr (.items xs) => xs

/-- Is the instruction a BUILD, by either of its spellings: the only instructions that write PKT and PBUF (R28)? -/
def isBuild : Instr → Bool
  | .ping _ _ | .readData _ _ | .writeData _ _ | .regWrite _ _ | .action _ _ | .reset _ _ | .syncWrite _ _
  | .build _ _ _ => true
  | .toBytes | .cksum _ _ _ | .parse _ | .le16enc _ | .le16dec _ _ | .hexstr _ => false

/-- The number of parameters a BUILD offers. -/
def paramCount : Instr → Nat
  | .ping _ ps | .readData _ ps | .writeData _ ps | .regWrite _ ps | .action _ ps | .reset _ ps
  | .syncWrite _ ps | .build _ _ ps => ps.length
  | .toBytes | .cksum _ _ _ | .parse _ | .le16enc _ | .le16dec _ _ | .hexstr _ => 0

/-- The causes R192 gives each command (column "command"). -/
def causesOf : Instr → List Cause
  | .ping _ _ | .readData _ _ | .writeData _ _ | .regWrite _ _ | .action _ _ | .reset _ _ | .syncWrite _ _
  | .build _ _ _ => [.tId, .tInstr, .tParam, .vId, .vInstr, .vCount, .vParam]
  | .toBytes | .cksum _ _ _ => []
  | .parse _ => [.vRxShort, .vRxHeader, .vRxLength, .vRxCount, .vRxChecksum, .vRxId]
  | .le16enc _ => [.tLeValue, .vLeRange]
  | .le16dec _ _ => [.tLeByte, .vLeByte]
  | .hexstr _ => [.tHexInput, .tHexItem, .vHexByte]

/-- From `s`, instruction `i` builds a packet (outcome ok), and the TOBYTES that follows returns the frame `F`. -/
def BuildsFrame (i : Instr) (s : State) (F : List Byte) : Prop :=
  ∃ t u, exec i s = .next t ∧ t.valid = true ∧ t.outcome = some (.success .built) ∧ t.host = s.host ∧
    exec .toBytes t = .next u ∧ SamePacket t u ∧ u.outcome = some (.success (.frame F))

end Sys2Proof.Machine
end

