-- ==== Sys2Proof/WellFormed.lean ====
section
/-! DEFINITION. Which terms of `Instr` are the instruction their command decodes to. Operand types carry every other
bound (R86: an `Operand` is any integer or `nonint`, a `Byte` is 8 bits, a sequence has any finite length). -/

namespace Sys2Proof

/-- `build` stands for the BUILD commands whose `instruction` operand is outside the closed set: with an opcode of R80
in that place the command is that opcode's instruction (log 9). -/
def WellFormed : Instr → Bool
  | .build _ (.int v) _ => (opcodeOf? v).isNone
  | .build _ .nonint _ => true
  | .ping _ _ | .readData _ _ | .writeData _ _ | .regWrite _ _ | .action _ _ | .reset _ _ | .syncWrite _ _ => true
  | .toBytes | .cksum _ _ _ | .parse _ | .le16enc _ | .le16dec _ _ | .hexstr _ => true

end Sys2Proof
end

