-- ==== Sys2Proof/Certificates/Slice0/Obligations.lean ====
section
/-! DEFINITION. The statements for the provers. "Derived" in a docstring says that the statement rests on a decision D<n>
of spec/92_eei_decisions.md or on an inference the spec marks as its own. -/

open Sys2Proof Sys2Proof.Machine

/-! ## Reset, the invariant, and runs -/

/-- R37, R221 (derived: D20). Reset leaves no packet held, TOBYTES is then refused, and a second reset changes nothing but
the event it consumes. That the outcome port is empty after reset (log 15) and that the refusal is a next state (log 3) are the model's choices. -/
def Obligations.ResetEventHoldsNoPacket : Prop :=
  State.reset.valid = false ∧
  ∀ (s : State) (rest : List HostEvent), s.host = .reset :: rest →
    ∃ t, step s = .next t ∧ t.valid = false ∧ t.host = rest ∧ t.outcome = none ∧
      exec .toBytes t = .next (t.refuse .noPacket) ∧
      ∀ rest', rest = .reset :: rest' → step t = .next { t with host := rest' }

/-- R29 (derived): the packet invariant, with PBUF's canonical form, holds at reset. -/
def Obligations.InvariantHoldsAtReset : Prop := StateInv Config.standard State.reset

/-- R29 (derived): every step keeps the packet invariant and PBUF's canonical form. -/
def Obligations.StepKeepsPacketInvariant : Prop :=
  ∀ s t : State, StateInv Config.standard s → step s = .next t → StateInv Config.standard t

/-- R29, D9 (derived): at every legal `MAX_PARAMS`, BUILD keeps the packet invariant. -/
def Obligations.BuildKeepsInvariantAtEveryLegalConfig : Prop :=
  ∀ (c : Config) (id op : Operand) (ps : List Operand) (s t : State), c.Legal → StateInv c s →
    buildWith c id op ps s = .next t → StateInv c t

/-- R22, R23. While a packet is held after a step, ID is in `0x00..=0xFE` (so never 0xFF) and INSTR is one of the seven
opcodes; violating values are rejected at construction, and TOBYTES never raises an error. -/
def Obligations.HeldIdAndOpcodeStayLegal : Prop :=
  (∀ s t : State, StateInv Config.standard s → step s = .next t →
    (t.valid = true → t.id.toNat ≤ 0xFE ∧ t.id ≠ 0xFF#8 ∧
      t.instr ∈ [0x01#8, 0x02#8, 0x03#8, 0x04#8, 0x05#8, 0x06#8, 0x83#8]) ∧
    (∀ u e, exec .toBytes t = .next u → u.outcome ≠ some (.error e))) ∧
  ∀ (s : State) (i v : Int) (ps : List Operand),
    (i < 0x00 ∨ 0xFE < i ∨ v ∉ [0x01, 0x02, 0x03, 0x04, 0x05, 0x06, 0x83]) →
    ∃ e, exec (.build (.int i) (.int v) ps) s = .next (s.raise e)

/-- R190, R191 (derived; law L7). Every instruction on every operand ends in exactly one outcome, of kind 0, 1, 2 or 3, and
the only instruction that can be refused is TOBYTES with no packet held. That the refused one ends in a next state is the
model's reading of R198 (log 3). -/
def Obligations.EveryInstructionEndsInAnOutcome : Prop :=
  ∀ (i : Instr) (s : State), StateInv Config.standard s →
    ∃ t o, exec i s = .next t ∧ t.outcome = some o ∧ o.kindCode ≤ 3 ∧
      (o.kindCode = 3 ↔ i = .toBytes ∧ s.valid = false)

/-- R8, R190 (derived). From every state that meets the invariant and whose host presents only what the interface can carry,
a run of any length goes on: no fault, no stop; the invariant holds at its end. Three parts of it are the model's choice:
that a run goes on THROUGH a refusal (log 3; R198 says that the block stays ready, and also that nothing can be concluded
about a run that contains a refusal), that a step with no event is an idle step (log 1), and that operands of the wrong
types are the host's fault, ruled out by `WellPresented` (log 8). -/
def Obligations.EveryRunGoesOn : Prop :=
  ∀ (k : Nat) (s : State), StateInv Config.standard s → WellPresented s →
    ∃ t : State, Sys2Proof.core.run k s = .next t ∧ StateInv Config.standard t ∧ WellPresented t

/-! ## Encoding and the step -/

/-- R85 (derived: D6, log 8, log 9): decode of encode is the instruction, for every well-formed instruction. -/
def Obligations.DecodeOfEncode : Prop :=
  ∀ i : Instr, WellFormed i = true → decode (encode i) = .ok i

/-- R85, R137 (derived: log 9). For every term of `Instr`, well formed or not, the command the encoder emits decodes to an
instruction with the same meaning. -/
def Obligations.EncodedCommandRunsAsItsInstruction : Prop :=
  ∀ i : Instr, ∃ j, decode (encode i) = .ok j ∧ ∀ s, exec j s = exec i s

/-- R85, R89 (derived: D6, log 8). A command that decodes gives a well-formed instruction, and it is that instruction's own
command, or BUILD with its parameters omitted, which is BUILD with the empty sequence. -/
def Obligations.DecodedCommandIsCanonical : Prop :=
  ∀ (w : Command) (i : Instr), decode w = .ok i →
    WellFormed i = true ∧
      (encode i = w ∨ ∃ id op, w = ⟨0b000#3, [.val id, .val op]⟩ ∧ encode i = ⟨0b000#3, [.val id, .val op, .seq []]⟩)

/-- R80, R85 (derived: D6): words written out from the encoding tables decode to the instructions they stand for. -/
def Obligations.WordsDecodeAsTheTablesSay : Prop :=
  decode ⟨0b000#3, [.val (.int 0x01), .val (.int 0b00000001), .seq []]⟩ = .ok (.ping (.int 1) []) ∧
  decode ⟨0b000#3, [.val (.int 0xFE), .val (.int 0b10000011), .seq [.int 30, .int 1, .int 1, .int 16]]⟩ =
    .ok (.syncWrite (.int 254) [.int 30, .int 1, .int 1, .int 16]) ∧
  decode ⟨0b000#3, [.val (.int 1), .val (.int 0b10000010), .seq []]⟩ = .ok (.build (.int 1) (.int 0x82) []) ∧
  decode ⟨0b001#3, []⟩ = .ok .toBytes ∧
  decode ⟨0b010#3, [.byte 0xFD#8, .byte 0x01#8, .bytes []]⟩ = .ok (.cksum 0xFD#8 0x01#8 []) ∧
  decode ⟨0b101#3, [.val (.int 188), .val (.int 2)]⟩ = .ok (.le16dec (.int 188) (.int 2)) ∧
  decode ⟨0b111#3, []⟩ = .error .unknownCommand

/-- R7, R27 (derived: D1, D2). When the host's next event is a command that decodes to an instruction, the step is that
instruction's meaning in the state from which the event has been taken. -/
def Obligations.StepRunsDecodedCommand : Prop :=
  ∀ (s : State) (cmd : Command) (rest : List HostEvent) (i : Instr),
    s.host = .command cmd :: rest → decode cmd = .ok i → step s = exec i { s with host := rest }

/-- The model's own (log 10, log 11): a word of the opcode table, placed by `withFetchWord`, runs next. -/
def Obligations.StepRunsTableWord : Prop :=
  ∀ (s : State) (nbits w : Nat) (i : Instr),
    decodeTableWord nbits w = some i → step (s.withFetchWord nbits w) = exec i s

/-- R198, R157 (derived: D6, D24, log 3). Command code 7 with any operands is refused with `UnknownCommand`, nothing else
changes; without the formatter code 6 is refused in the same way. -/
def Obligations.UnassignedCodeIsRefused : Prop :=
  ∀ (s : State) (args : List Arg) (rest : List HostEvent),
    (s.host = .command ⟨0b111#3, args⟩ :: rest →
      step s = .next { s with host := rest, outcome := some (.refusal .unknownCommand) }) ∧
    ∀ c : Config, c.hasHexstr = false → s.host = .command ⟨0b110#3, args⟩ :: rest →
      stepWith c s = .next { s with host := rest, outcome := some (.refusal .unknownCommand) }

/-- R204, R86 (derived: D5, log 1, log 8). With no event the block holds its whole state; a command whose operands the
interface cannot carry has no meaning. -/
def Obligations.IdleBlockHoldsItsState : Prop :=
  ∀ s : State, (s.host = [] → step s = .next s) ∧
    ∀ cmd rest, s.host = .command cmd :: rest → decode cmd = .error .operandShape →
      step s = .refused .operandShape

/-- R58. Commands take effect in the order the host issues them, each seeing the state the previous one left; when BUILD
succeeds and the next command is TOBYTES, TOBYTES returns the frame of exactly the operands BUILD was given. -/
def Obligations.CommandsTakeEffectInOrder : Prop :=
  (∀ (k : Nat) (s t : State), step s = .next t → Sys2Proof.core.run (k + 1) s = Sys2Proof.core.run k t) ∧
  ∀ (s : State) (id : Byte) (o : Opcode) (ps : List Byte) (rest : List HostEvent),
    s.pbuf.wf → id.toNat ≤ 0xFE →
    (lut Config.standard o).min ≤ ps.length → ps.length ≤ (lut Config.standard o).max →
    s.host = .command ⟨0b000#3, [.val (byteOperand id), .val (.int o.value), .seq (ps.map byteOperand)]⟩ ::
      .command ⟨0b001#3, []⟩ :: rest →
    ∃ t u : State, step s = .next t ∧ t.outcome = some (.success .built) ∧ step t = .next u ∧
      u.outcome = some (.success (.frame (frameOf id o.byte ps))) ∧ u.host = rest

/-! ## The checksum and TOBYTES -/

/-- R76. CHECKSUM is the bitwise complement, lowest 8 bits, of ID + LENGTH + INSTRUCTION + the sum of the parameters, and
it is the last byte of the frame; the two header bytes are not in the sum. -/
def Obligations.ChecksumIsComplementOfSum : Prop :=
  ∀ (id ib : Byte) (ps : List Byte),
    (frameOf id ib ps).getLast? =
      some (~~~ (BitVec.ofNat 8 (id.toNat + (ps.length + 2) + ib.toNat + (ps.map BitVec.toNat).sum)))

/-- R100 (derived: the byte operands are D8, the unbounded sequence D26). CKSUM answers the checksum for every operand and
changes nothing else. -/
def Obligations.CksumAnswersForEveryOperand : Prop :=
  ∀ (id ib : Byte) (ps : List Byte) (s : State), ∃ b : Byte,
    exec (.cksum id ib ps) s = .next { s with outcome := some (.success (.byte b)) } ∧
    b.toNat = 255 - (id.toNat + (ps.length + 2) + ib.toNat + (ps.map BitVec.toNat).sum) % 256

/-- R102 (derived). A wrapping 8-bit accumulator gives the same checksum; ID to CHECKSUM of every frame of at most 253
parameters add up to 0xFF modulo 256; the order of the parameters does not matter; over legal packets the exact sum is at
most 64255. -/
def Obligations.ChecksumArithmetic : Prop :=
  ∀ (id ib : Byte) (ps : List Byte),
    cksum id ib ps = ~~~ (ps.foldl (· + ·) (id + BitVec.ofNat 8 (ps.length + 2) + ib)) ∧
    (ps.length ≤ 253 → (((frameOf id ib ps).drop 2).map BitVec.toNat).sum % 256 = 0xFF) ∧
    (∀ qs, ps.Perm qs → cksum id ib ps = cksum id ib qs) ∧
    (id.toNat ≤ 0xFE → ps.length ≤ Config.standard.maxParams → checksumSum id ib ps ≤ 64255)

/-- R103, R198, R226 (derived: D7, log 3). With no packet held TOBYTES is refused with `NoPacket` and nothing else
changes. -/
def Obligations.TobytesWithoutPacketIsRefused : Prop :=
  ∀ s : State, s.valid = false →
    exec .toBytes s = .next { s with outcome := some (.refusal .noPacket) }

/-- R103, R70 (derived: the holding register is D3). With a packet held TOBYTES answers its frame, byte by byte, and
changes nothing else. -/
def Obligations.TobytesReturnsHeldFrame : Prop :=
  ∀ s : State, StateInv Config.standard s → s.valid = true →
    ∃ F : List Byte, exec .toBytes s = .next { s with outcome := some (.success (.frame F)) } ∧
      F.length = s.np.toNat + 6 ∧ F[0]? = some 0xFF#8 ∧ F[1]? = some 0xFF#8 ∧ F[2]? = some s.id ∧
      (F[3]?.map BitVec.toNat) = some (s.np.toNat + 2) ∧ F[4]? = some s.instr ∧
      (∀ k, k < s.np.toNat → F[5 + k]? = some (s.pbuf.read k)) ∧
      F[5 + s.np.toNat]? = some (cksum s.id s.instr (heldParams s))

/-- R104. For all valid `(id, instruction, parameters)`: construction succeeds and (a) the frame has `n + 6` bytes, (b) its
last byte is the checksum, (c) a second TOBYTES yields the same, (d) PARSE gives the packet back, (e) the frame is well
formed. -/
def Obligations.BuildSerialiseParse : Prop :=
  ∀ (s : State) (id : Byte) (o : Opcode) (ps : List Byte), s.pbuf.wf → id.toNat ≤ 0xFE →
    (lut Config.standard o).min ≤ ps.length → ps.length ≤ (lut Config.standard o).max →
    ∃ (t u : State) (F : List Byte),
      exec (.build (byteOperand id) (.int o.value) (ps.map byteOperand)) s = .next t ∧
      t.outcome = some (.success .built) ∧
      exec .toBytes t = .next u ∧ u.outcome = some (.success (.frame F)) ∧
      F.length = ps.length + 6 ∧
      (F.getLast?.map BitVec.toNat) =
        some (255 - (id.toNat + (ps.length + 2) + o.byte.toNat + (ps.map BitVec.toNat).sum) % 256) ∧
      exec .toBytes u = .next u ∧
      exec (.parse F) u = .next { u with outcome := some (.success (.parsed ⟨id, o.byte, ps⟩)) } ∧
      F[0]? = some 0xFF#8 ∧ F[1]? = some 0xFF#8 ∧ (∃ b : Byte, F[2]? = some b ∧ b.toNat ≤ 0xFE) ∧
      (F[3]?.map BitVec.toNat) = some (F.length - 4) ∧
      (∃ b, F[4]? = some b ∧ b ∈ [0x01#8, 0x02#8, 0x03#8, 0x04#8, 0x05#8, 0x06#8, 0x83#8])

/-! ## BUILD -/

/-- R120, R126, R51, R55 (derived: the register is D3; that PBUF above n keeps its bytes reads R55's "nothing above",
log 5). BUILD on operands that pass the five checks succeeds, and the frame: the registers take the operands, PBUF the
parameters in order, every byte of PBUF from index n on is as before, and the host's events are untouched. -/
def Obligations.BuildCommitsItsOperands : Prop :=
  ∀ (s : State) (id : Byte) (o : Opcode) (ps : List Byte), s.pbuf.wf → id.toNat ≤ 0xFE →
    (lut Config.standard o).min ≤ ps.length → ps.length ≤ (lut Config.standard o).max →
    ∃ t, exec (.build (byteOperand id) (.int o.value) (ps.map byteOperand)) s = .next t ∧
      t.valid = true ∧ t.id = id ∧ t.instr = o.byte ∧ t.np.toNat = ps.length ∧ heldParams t = ps ∧
      (∀ k, ps.length ≤ k → t.pbuf.read k = s.pbuf.read k) ∧ t.pbuf.wf ∧ t.host = s.host ∧
      t.outcome = some (.success .built)

/-- Law L9 from R120 to R125 (derived). BUILD succeeds on exactly this set of operands, whatever the state. -/
def Obligations.BuildAcceptanceSet : Prop :=
  ∀ (id op : Operand) (ps : List Operand) (s : State),
    (∃ t, exec (.build id op ps) s = .next t ∧ t.outcome = some (.success .built)) ↔
    ∃ (i : Int) (o : Opcode) (vs : List Int), id = .int i ∧ (0x00 ≤ i ∧ i ≤ 0xFE) ∧ op = .int o.value ∧
      ps = vs.map .int ∧ ((lut Config.standard o).min ≤ vs.length ∧ vs.length ≤ (lut Config.standard o).max) ∧
      ∀ v ∈ vs, 0x00 ≤ v ∧ v ≤ 0xFF

/-- R121 (derived: the order inside the check is D11). The type check covers all operands before any range check: `id`,
then `instruction`, then the first `nonint` parameter decides the cause. -/
def Obligations.BuildTypeCheckComesFirst : Prop :=
  ∀ (s : State) (op : Operand) (ps rest : List Operand) (i v : Int) (vs : List Int),
    exec (.build .nonint op ps) s = .next (s.raise ⟨.tId, ⟨.id, .nonInteger, .integer⟩⟩) ∧
    exec (.build (.int i) .nonint ps) s = .next (s.raise ⟨.tInstr, ⟨.instruction, .nonInteger, .integer⟩⟩) ∧
    exec (.build (.int i) (.int v) (vs.map .int ++ .nonint :: rest)) s =
      .next (s.raise ⟨.tParam, ⟨.parameter vs.length, .nonInteger, .integer⟩⟩)

/-- R122. Check 2 fails for every integer below 0 and from 0xFF up, with cause `V_ID`; `0xFE` is accepted. -/
def Obligations.BuildRejectsIdOutOfRange : Prop :=
  ∀ (s : State),
    (∀ (i v : Int) (vs : List Int), i < 0 ∨ 0xFF ≤ i →
      exec (.build (.int i) (.int v) (vs.map .int)) s =
        .next { s with outcome := some (.error ⟨.vId, ⟨.id, .int i, .range 0x00 0xFE⟩⟩) }) ∧
    ∃ t, exec (.build (.int 0xFE) (.int 0x01) []) s = .next t ∧ t.id = 0xFE#8 ∧
      t.outcome = some (.success .built)

/-- R123. Check 3 fails for every integer that is not one of the seven opcodes, in or out of byte range, with the same
cause `V_INSTR`. -/
def Obligations.BuildRejectsUnlistedInstruction : Prop :=
  ∀ (s : State) (i v : Int) (vs : List Int), 0x00 ≤ i → i ≤ 0xFE →
    v ∉ [0x01, 0x02, 0x03, 0x04, 0x05, 0x06, 0x83] →
    exec (.build (.int i) (.int v) (vs.map .int)) s =
      .next { s with outcome := some (.error ⟨.vInstr, ⟨.instruction, .int v,
        .opcodes [0x01#8, 0x02#8, 0x03#8, 0x04#8, 0x05#8, 0x06#8, 0x83#8]⟩⟩) }

/-- R124. Check 4 fails when the count is outside the row's bounds, before any parameter's value is looked at; PING with
one parameter is rejected, WRITE_DATA with MAX_PARAMS parameters is accepted, with one more rejected. -/
def Obligations.BuildRejectsParameterCount : Prop :=
  ∀ (s : State) (i : Int) (vs : List Int), 0x00 ≤ i → i ≤ 0xFE →
    (∀ o : Opcode, vs.length < (lut Config.standard o).min ∨ (lut Config.standard o).max < vs.length →
      exec (.build (.int i) (.int o.value) (vs.map .int)) s =
        .next { s with outcome := some (.error ⟨.vCount, ⟨.parameters, .int vs.length,
          .range (lut Config.standard o).min (lut Config.standard o).max⟩⟩) }) ∧
    (vs.length = 1 → exec (.build (.int i) (.int 0x01) (vs.map .int)) s =
      .next { s with outcome := some (.error ⟨.vCount, ⟨.parameters, .int 1, .range 0 0⟩⟩) }) ∧
    (vs.length = Config.standard.maxParams → (∀ v ∈ vs, 0x00 ≤ v ∧ v ≤ 0xFF) →
      ∃ t, exec (.build (.int i) (.int 0x03) (vs.map .int)) s = .next t ∧ t.outcome = some (.success .built)) ∧
    (vs.length = Config.standard.maxParams + 1 →
      exec (.build (.int i) (.int 0x03) (vs.map .int)) s =
        .next { s with outcome := some (.error ⟨.vCount, ⟨.parameters, .int vs.length,
          .range 2 Config.standard.maxParams⟩⟩) })

/-- R125. Check 5 fails when some parameter is negative or above 0xFF; the record lists all offending values in order. -/
def Obligations.BuildRejectsParameterOutOfRange : Prop :=
  ∀ (s : State) (i : Int) (o : Opcode) (vs : List Int), 0x00 ≤ i → i ≤ 0xFE →
    (lut Config.standard o).min ≤ vs.length → vs.length ≤ (lut Config.standard o).max →
    (∃ v ∈ vs, v < 0x00 ∨ 0xFF < v) →
    exec (.build (.int i) (.int o.value) (vs.map .int)) s =
      .next { s with outcome := some (.error ⟨.vParam, ⟨.parameters,
        .ints (vs.filter (fun v => decide (v < 0x00) || decide (0xFF < v))), .range 0x00 0xFF⟩⟩) }

/-- R130 to R136, R137 (derived: log 9). Each opcode's instruction is BUILD with that opcode's value. -/
def Obligations.OpcodeIsBuildWithItsValue : Prop :=
  ∀ (id : Operand) (ps : List Operand) (s : State),
    exec (.ping id ps) s = exec (.build id (.int 0x01) ps) s ∧
    exec (.readData id ps) s = exec (.build id (.int 0x02) ps) s ∧
    exec (.writeData id ps) s = exec (.build id (.int 0x03) ps) s ∧
    exec (.regWrite id ps) s = exec (.build id (.int 0x04) ps) s ∧
    exec (.action id ps) s = exec (.build id (.int 0x05) ps) s ∧
    exec (.reset id ps) s = exec (.build id (.int 0x06) ps) s ∧
    exec (.syncWrite id ps) s = exec (.build id (.int 0x83) ps) s

/-- R130, R134, R135. PING, ACTION and RESET take no parameter: they build the six-byte frame the rules print, and any
parameter makes them end with `V_COUNT`. -/
def Obligations.ParameterlessOpcodesBuildTheirFrames : Prop :=
  ∀ (s : State) (id : Byte), id.toNat ≤ 0xFE →
    BuildsFrame (.ping (byteOperand id) []) s
      [0xFF#8, 0xFF#8, id, 0x02#8, 0x01#8, ~~~ BitVec.ofNat 8 (id.toNat + 3)] ∧
    BuildsFrame (.action (byteOperand id) []) s
      [0xFF#8, 0xFF#8, id, 0x02#8, 0x05#8, ~~~ BitVec.ofNat 8 (id.toNat + 7)] ∧
    BuildsFrame (.reset (byteOperand id) []) s
      [0xFF#8, 0xFF#8, id, 0x02#8, 0x06#8, ~~~ BitVec.ofNat 8 (id.toNat + 8)] ∧
    ∀ vs : List Int, vs ≠ [] →
      exec (.ping (byteOperand id) (vs.map .int)) s =
        .next (s.raise ⟨.vCount, ⟨.parameters, .int vs.length, .range 0 0⟩⟩) ∧
      exec (.action (byteOperand id) (vs.map .int)) s =
        .next (s.raise ⟨.vCount, ⟨.parameters, .int vs.length, .range 0 0⟩⟩) ∧
      exec (.reset (byteOperand id) (vs.map .int)) s =
        .next (s.raise ⟨.vCount, ⟨.parameters, .int vs.length, .range 0 0⟩⟩)

/-- R131. READ_DATA takes exactly two parameters, carried as opaque bytes; any other count ends with `V_COUNT`. -/
def Obligations.ReadDataBuildsItsFrame : Prop :=
  ∀ (s : State) (id : Byte), s.pbuf.wf → id.toNat ≤ 0xFE →
    (∀ p0 p1 : Byte, BuildsFrame (.readData (byteOperand id) [byteOperand p0, byteOperand p1]) s
      [0xFF#8, 0xFF#8, id, 0x04#8, 0x02#8, p0, p1, ~~~ BitVec.ofNat 8 (id.toNat + 6 + p0.toNat + p1.toNat)]) ∧
    ∀ vs : List Int, vs.length ≠ 2 →
      exec (.readData (byteOperand id) (vs.map .int)) s =
        .next (s.raise ⟨.vCount, ⟨.parameters, .int vs.length, .range 2 2⟩⟩)

/-- R132, R133. WRITE_DATA and REG_WRITE take 2 to MAX_PARAMS parameters; their frame has `n + 6` bytes, 8 to 255; any
other count ends with `V_COUNT`. -/
def Obligations.WriteOpcodesBuildTheirFrames : Prop :=
  ∀ (s : State) (id : Byte), s.pbuf.wf → id.toNat ≤ 0xFE →
    (∀ ps : List Byte, 2 ≤ ps.length → ps.length ≤ Config.standard.maxParams →
      ∃ F G : List Byte,
        BuildsFrame (.writeData (byteOperand id) (ps.map byteOperand)) s F ∧
        F = [0xFF#8, 0xFF#8, id, BitVec.ofNat 8 (ps.length + 2), 0x03#8] ++ ps ++ [cksum id 0x03#8 ps] ∧
        BuildsFrame (.regWrite (byteOperand id) (ps.map byteOperand)) s G ∧
        G = [0xFF#8, 0xFF#8, id, BitVec.ofNat 8 (ps.length + 2), 0x04#8] ++ ps ++ [cksum id 0x04#8 ps] ∧
        F.length = ps.length + 6 ∧ G.length = ps.length + 6 ∧ 8 ≤ F.length ∧ F.length ≤ 255) ∧
    ∀ vs : List Int, vs.length < 2 ∨ Config.standard.maxParams < vs.length →
      exec (.writeData (byteOperand id) (vs.map .int)) s =
        .next (s.raise ⟨.vCount, ⟨.parameters, .int vs.length, .range 2 Config.standard.maxParams⟩⟩) ∧
      exec (.regWrite (byteOperand id) (vs.map .int)) s =
        .next (s.raise ⟨.vCount, ⟨.parameters, .int vs.length, .range 2 Config.standard.maxParams⟩⟩)

/-- R136. SYNC_WRITE takes 4 to MAX_PARAMS parameters of any values to any legal ID; its frame has 10 to 255 bytes; any
other count ends with `V_COUNT`. -/
def Obligations.SyncWriteBuildsItsFrame : Prop :=
  ∀ (s : State) (id : Byte), s.pbuf.wf → id.toNat ≤ 0xFE →
    (∀ ps : List Byte, 4 ≤ ps.length → ps.length ≤ Config.standard.maxParams →
      ∃ F : List Byte,
        BuildsFrame (.syncWrite (byteOperand id) (ps.map byteOperand)) s F ∧
        F = [0xFF#8, 0xFF#8, id, BitVec.ofNat 8 (ps.length + 2), 0x83#8] ++ ps ++ [cksum id 0x83#8 ps] ∧
        10 ≤ F.length ∧ F.length ≤ 255) ∧
    ∀ vs : List Int, vs.length < 4 ∨ Config.standard.maxParams < vs.length →
      exec (.syncWrite (byteOperand id) (vs.map .int)) s =
        .next (s.raise ⟨.vCount, ⟨.parameters, .int vs.length, .range 4 Config.standard.maxParams⟩⟩)

/-! ## What commands change -/

/-- R196, R198 (derived: D4, D10). A command that ends in an error or a refusal writes no state: only the outcome it delivers
changes. That a refusal ends in a next state is the model's reading of R198 (log 3). -/
def Obligations.ErrorWritesNoState : Prop :=
  ∀ (i : Instr) (s t : State), exec i s = .next t → (∀ r, t.outcome ≠ some (.success r)) →
    t.valid = s.valid ∧ t.id = s.id ∧ t.instr = s.instr ∧ t.np = s.np ∧ t.pbuf = s.pbuf ∧ t.host = s.host ∧
      ∃ o, t.outcome = some o

/-- R126, R226 (derived: D4). After a BUILD that fails, TOBYTES answers what it would have answered before. -/
def Obligations.FailedBuildKeepsOlderFrame : Prop :=
  ∀ (i : Instr) (s t : State) (e : ErrorRecord), isBuild i = true → exec i s = .next t →
    t.outcome = some (.error e) → exec .toBytes t = exec .toBytes s

/-- R28 (derived: the register is D3; law L4). TOBYTES, CKSUM, PARSE, LE16ENC, LE16DEC and HEXSTR leave everything but
the delivered outcome; whenever an instruction changes PKT or PBUF, it is a BUILD that succeeded. -/
def Obligations.OnlySuccessfulBuildWritesThePacket : Prop :=
  ∀ (i : Instr) (s t : State), exec i s = .next t →
    (isBuild i = false → SamePacket s t ∧ t.host = s.host ∧ ∀ k, t.pbuf.read k = s.pbuf.read k) ∧
    (¬ SamePacket s t → isBuild i = true ∧ t.outcome = some (.success .built))

/-- R55, R28, R21 (derived: D3, log 5): the frame of BUILD in each of its spellings. When it answers a next state the
host's events are untouched, a held packet stays held, and every byte of PBUF outside the stored indices `0 .. n-1` reads
as before, n being the number of parameters offered. -/
def Obligations.BuildFrameOfState : Prop :=
  ∀ (i : Instr) (s t : State), isBuild i = true → exec i s = .next t →
    t.host = s.host ∧ (s.valid = true → t.valid = true) ∧
    (∀ k, paramCount i ≤ k → t.pbuf.read k = s.pbuf.read k)

/-- R21 (derived: D3). VALID becomes 1 only at a successful BUILD and only the reset event sets it back to 0. -/
def Obligations.OnlyResetDropsAPacket : Prop :=
  ∀ s t : State, step s = .next t →
    (s.valid = true → t.valid = false → ∃ rest, s.host = .reset :: rest) ∧
    (s.valid = false → t.valid = true →
      ∃ cmd rest i, s.host = .command cmd :: rest ∧ decode cmd = .ok i ∧ isBuild i = true ∧
        t.outcome = some (.success .built))

/-- R21, R24, R34, U8 (derived: D20, log 4, log 5). Two states that agree on what a command may read take steps with equal
outcomes to states that agree again: no step depends on ID, INSTR, NP, PBUF while no packet is held, nor on PBUF from
index NP on. -/
def Obligations.UnreadableStateIsNeverObserved : Prop :=
  ∀ s t s' : State, StateInv Config.standard s → StateInv Config.standard t → SameReadable s t → step s = .next s' →
    ∃ t', step t = .next t' ∧ SameReadable s' t' ∧ (s.host ≠ [] → s'.outcome = t'.outcome)

/-- After a command that ended in an error (R32, R197) or in a refusal, the next event does what it would have done had the
failing command never been issued (derived). R32 and R197 speak of errors only: what follows a REFUSAL is the model's
reading (log 3) of R198, which says that no state is written and that the block stays ready, and also that nothing can be
concluded about a run that contains a refusal. -/
def Obligations.FailedCommandLeavesNoTrace : Prop :=
  ∀ (s t : State) (cmd : Command) (ev : HostEvent) (rest : List HostEvent),
    s.host = .command cmd :: ev :: rest → step s = .next t → (∀ r, t.outcome ≠ some (.success r)) →
    step t = step { s with host := ev :: rest }

/-! ## PARSE -/

/-- Law L3, R84, R179 (derived: the ID domain is D15, the ceiling D16). At every legal `MAX_PARAMS` PARSE accepts exactly
the frames with `id <= 0xFE` and at most `MAX_PARAMS` parameters, returning their fields; on this hardware it does so in
every state and changes nothing else. -/
def Obligations.ParseAcceptsExactlyTheFrames : Prop :=
  (∀ (c : Config) (B : List Byte) (p : Parsed), c.Legal →
    (parseFrame c B = .ok p ↔
      B = frameOf p.id p.errorByte p.params ∧ p.id.toNat ≤ 0xFE ∧ p.params.length ≤ c.maxParams)) ∧
  ∀ (s : State) (id eb : Byte) (ps : List Byte), id.toNat ≤ 0xFE → ps.length ≤ Config.standard.maxParams →
    exec (.parse (frameOf id eb ps)) s = .next { s with outcome := some (.success (.parsed ⟨id, eb, ps⟩)) }

/-- R172. Once the sequence is long enough, one wrong header byte rejects it with `V_RX_HEADER`, whatever stands further
on. -/
def Obligations.ParseRejectsWrongHeader : Prop :=
  ∀ (s : State) (b0 b1 : Byte) (B : List Byte), 4 ≤ B.length → b0 ≠ 0xFF#8 ∨ b1 ≠ 0xFF#8 →
    exec (.parse (b0 :: b1 :: B)) s =
      .next { s with outcome := some (.error ⟨.vRxHeader, ⟨.header, .bytePair b0 b1, .bytePair 0xFF#8 0xFF#8⟩⟩) }

/-- R173. With a right header, a LENGTH byte other than `m - 4` rejects the sequence with `V_RX_LENGTH`; this rejects every
LENGTH byte below 2 and every sequence longer than 259 bytes. -/
def Obligations.ParseRejectsInconsistentLength : Prop :=
  ∀ (s : State) (id len : Byte) (B : List Byte), 2 ≤ B.length →
    (len.toNat ≠ B.length →
      exec (.parse (0xFF#8 :: 0xFF#8 :: id :: len :: B)) s =
        .next { s with outcome := some (.error ⟨.vRxLength, ⟨.length, .int len.toNat, .exactly B.length⟩⟩) }) ∧
    (len.toNat < 2 ∨ 259 < B.length + 4 → ∃ info,
      exec (.parse (0xFF#8 :: 0xFF#8 :: id :: len :: B)) s =
        .next { s with outcome := some (.error ⟨.vRxLength, info⟩) })

/-- R175. With a consistent LENGTH and at most `MAX_PARAMS` parameters, a last byte other than the one checksum function of
the fields before it rejects the sequence with `V_RX_CHECKSUM`; equivalently, ID to CHECKSUM do not add up to 0xFF. -/
def Obligations.ParseRejectsChecksumMismatch : Prop :=
  ∀ (s : State) (id eb ck : Byte) (ps : List Byte), ps.length ≤ Config.standard.maxParams →
    (ck ≠ cksum id eb ps →
      exec (.parse ([0xFF#8, 0xFF#8, id, BitVec.ofNat 8 (ps.length + 2), eb] ++ ps ++ [ck])) s =
        .next { s with outcome := some (.error ⟨.vRxChecksum,
          ⟨.checksum, .int ck.toNat, .exactly (cksum id eb ps).toNat⟩⟩) }) ∧
    (ck = cksum id eb ps ↔
      (id.toNat + (ps.length + 2) + eb.toNat + (ps.map BitVec.toNat).sum + ck.toNat) % 256 = 0xFF)

/-- R171, R174, R176 (derived: D13, D15, D16). Fewer than 6 bytes are `V_RX_SHORT` before any byte is examined; more than
`MAX_PARAMS` parameters in an otherwise consistent frame are `V_RX_COUNT`, whatever the checksum; ID 0xFF with a right
checksum is `V_RX_ID`. -/
def Obligations.ParseRejectsShortLongAndReservedId : Prop :=
  ∀ s : State,
    (∀ B : List Byte, B.length < 6 → exec (.parse B) s =
      .next { s with outcome := some (.error ⟨.vRxShort, ⟨.frame, .int B.length, .atLeast 6⟩⟩) }) ∧
    (∀ (id eb ck : Byte) (ps : List Byte), Config.standard.maxParams < ps.length → ps.length ≤ 253 →
      exec (.parse ([0xFF#8, 0xFF#8, id, BitVec.ofNat 8 (ps.length + 2), eb] ++ ps ++ [ck])) s =
        .next { s with outcome := some (.error ⟨.vRxCount,
          ⟨.parameters, .int ps.length, .range 0 Config.standard.maxParams⟩⟩) }) ∧
    (∀ (eb : Byte) (ps : List Byte), ps.length ≤ Config.standard.maxParams →
      exec (.parse (frameOf 0xFF#8 eb ps)) s =
        .next { s with outcome := some (.error ⟨.vRxId, ⟨.id, .int 0xFF, .range 0x00 0xFE⟩⟩) })

/-- R180 (derived). A single changed byte among `B[2 .. m-1]` of an accepted frame always fails check 3 or check 5. -/
def Obligations.ParseDetectsSingleCorruption : Prop :=
  ∀ (s : State) (B : List Byte) (p : Parsed) (k : Nat) (b : Byte), parseFrame Config.standard B = .ok p →
    2 ≤ k → k < B.length → B[k]? ≠ some b →
    ∃ t e, exec (.parse (B.set k b)) s = .next t ∧ t.outcome = some (.error e) ∧
      (e.cause = .vRxLength ∨ e.cause = .vRxChecksum)

/-- R180 (derived). A reordering of the parameters of a frame passes PARSE: the code does not detect it. -/
def Obligations.ParseMissesReordering : Prop :=
  ∀ (s : State) (id eb : Byte) (ps qs : List Byte), ps.Perm qs → id.toNat ≤ 0xFE →
    ps.length ≤ Config.standard.maxParams →
    exec (.parse ([0xFF#8, 0xFF#8, id, BitVec.ofNat 8 (ps.length + 2), eb] ++ qs ++ [cksum id eb ps])) s =
      .next { s with outcome := some (.success (.parsed ⟨id, eb, qs⟩)) }

/-! ## The codecs -/

/-- R150. LE16ENC returns the low byte, then the high byte, for every integer in `0..=0xFFFF`; it is `V_LE_RANGE` outside
and `T_LE_VALUE` for a non-integer; nothing else changes. -/
def Obligations.Le16encResult : Prop :=
  ∀ s : State,
    (∀ v : Int, 0 ≤ v → v ≤ 0xFFFF → ∃ low high : Byte,
      exec (.le16enc (.int v)) s = .next { s with outcome := some (.success (.bytePair low high)) } ∧
      (low.toNat : Int) = v % 256 ∧ (high.toNat : Int) = v / 256) ∧
    (∀ v : Int, v < 0 ∨ 0xFFFF < v → exec (.le16enc (.int v)) s =
      .next { s with outcome := some (.error ⟨.vLeRange, ⟨.value, .int v, .range 0 0xFFFF⟩⟩) }) ∧
    exec (.le16enc .nonint) s =
      .next { s with outcome := some (.error ⟨.tLeValue, ⟨.value, .nonInteger, .integer⟩⟩) }

/-- R152 (derived: the whole rule is D18). LE16DEC returns `low + 256 * high` for bytes; both type checks come first, then
both range checks, low before high. -/
def Obligations.Le16decResult : Prop :=
  ∀ s : State,
    (∀ l h : Byte, exec (.le16dec (byteOperand l) (byteOperand h)) s =
      .next { s with outcome := some (.success (.value (l.toNat + 256 * h.toNat))) }) ∧
    (∀ x, exec (.le16dec .nonint x) s =
      .next { s with outcome := some (.error ⟨.tLeByte, ⟨.low, .nonInteger, .integer⟩⟩) }) ∧
    (∀ v, exec (.le16dec (.int v) .nonint) s =
      .next { s with outcome := some (.error ⟨.tLeByte, ⟨.high, .nonInteger, .integer⟩⟩) }) ∧
    (∀ v w, v < 0 ∨ 0xFF < v → exec (.le16dec (.int v) (.int w)) s =
      .next { s with outcome := some (.error ⟨.vLeByte, ⟨.low, .int v, .range 0x00 0xFF⟩⟩) }) ∧
    (∀ v w, 0 ≤ v → v ≤ 0xFF → w < 0 ∨ 0xFF < w → exec (.le16dec (.int v) (.int w)) s =
      .next { s with outcome := some (.error ⟨.vLeByte, ⟨.high, .int w, .range 0x00 0xFF⟩⟩) })

/-- R153 (derived; law L6). Decoding what LE16ENC returned gives the value back, and encoding what LE16DEC returned gives
the two bytes back. -/
def Obligations.Le16RoundTrip : Prop :=
  ∀ s : State,
    (∀ v : Int, 0 ≤ v → v ≤ 0xFFFF → ∃ (t : State) (low high : Byte), exec (.le16enc (.int v)) s = .next t ∧
      t.outcome = some (.success (.bytePair low high)) ∧
      exec (.le16dec (byteOperand low) (byteOperand high)) t =
        .next { s with outcome := some (.success (.value v)) }) ∧
    (∀ l h : Byte, ∃ (t : State) (v : Int), exec (.le16dec (byteOperand l) (byteOperand h)) s = .next t ∧
      t.outcome = some (.success (.value v)) ∧
      exec (.le16enc (.int v)) t = .next { s with outcome := some (.success (.bytePair l h)) })

/-- R155 (derived: the empty sequence's result is D19). For byte-range integers HEXSTR returns the comma-joined lower-case
two-digit tokens; a single integer gives the token of a one-item sequence. -/
def Obligations.HexstrText : Prop :=
  ∀ (s : State) (bs : List Byte) (b : Byte),
    exec (.hexstr (.items (bs.map byteOperand))) s = .next { s with outcome := some (.success (.text
      (List.intercalate [','] (bs.map fun b => [Nat.digitChar (b.toNat / 16), Nat.digitChar (b.toNat % 16)])))) } ∧
    exec (.hexstr (.one (byteOperand b))) s = .next { s with outcome := some (.success (.text
      [Nat.digitChar (b.toNat / 16), Nat.digitChar (b.toNat % 16)])) }

/-- R155 (derived: the order of the checks is D19). HEXSTR's errors: neither integer nor sequence; the first `nonint` item,
before any range check; all values out of byte range. -/
def Obligations.HexstrErrors : Prop :=
  ∀ s : State,
    exec (.hexstr (.one .nonint)) s =
      .next (s.raise ⟨.tHexInput, ⟨.input, .nonIntegerNonSequence, .integerOrSequence⟩⟩) ∧
    (∀ (vs : List Int) (rest : List Operand), exec (.hexstr (.items (vs.map .int ++ .nonint :: rest))) s =
      .next (s.raise ⟨.tHexItem, ⟨.inputItem vs.length, .nonInteger, .integer⟩⟩)) ∧
    (∀ vs : List Int, (∃ v ∈ vs, v < 0x00 ∨ 0xFF < v) → exec (.hexstr (.items (vs.map .int))) s =
      .next (s.raise ⟨.vHexByte, ⟨.input,
        .ints (vs.filter (fun v => decide (v < 0x00) || decide (0xFF < v))), .range 0x00 0xFF⟩⟩)) ∧
    (∀ v : Int, v < 0x00 ∨ 0xFF < v → exec (.hexstr (.one (.int v))) s =
      .next (s.raise ⟨.vHexByte, ⟨.input, .ints [v], .range 0x00 0xFF⟩⟩))

/-- R155, R156 (derived: D19, log 14). Every text HEXSTR returns for m items has `3m - 1` characters (none for `m = 0`),
all of them among the 17 of the rule. -/
def Obligations.HexstrCharacters : Prop :=
  ∀ (s t : State) (xs : List Operand) (cs : List Char), exec (.hexstr (.items xs)) s = .next t →
    t.outcome = some (.success (.text cs)) →
    cs.length = 3 * xs.length - 1 ∧
    ∀ ch ∈ cs, ch ∈ ['0', '1', '2', '3', '4', '5', '6', '7', '8', '9', 'a', 'b', 'c', 'd', 'e', 'f', ',']

/-! ## Errors over all instructions -/

/-- R191, R195 (derived: the orders are D11, D18, D19). Whatever the instruction, it ends in a TypeError exactly when some
operand that must be an integer is not: all type checks precede all value checks. -/
def Obligations.TypeErrorExactlyForNonIntegers : Prop :=
  ∀ (i : Instr) (s t : State), exec i s = .next t →
    ((∃ e, t.outcome = some (.error e) ∧ e.cause.kind = .typeError) ↔ Operand.nonint ∈ operandsOf i)

/-- R192 (derived: D10). An instruction raises only the causes the table gives its command; TOBYTES and CKSUM raise none. -/
def Obligations.CausesStayWithTheirCommand : Prop :=
  ∀ (i : Instr) (s t : State) (e : ErrorRecord), exec i s = .next t → t.outcome = some (.error e) →
    e.cause ∈ causesOf i

/-- No two causes share a code, and a cause determines its kind (R192, derived: D10). Which seven causes are TypeErrors is
the model's reading (log 16): it follows the rows of R192's table, while the sentence above the table counts 6 TypeErrors
and 14 ValueErrors. -/
def Obligations.CauseCodesAreDistinct : Prop :=
  (∀ a b : Cause, a.code = b.code → a = b) ∧
  ∀ a : Cause, a.kind = .typeError ↔ a ∈ [.tId, .tInstr, .tParam, .tLeValue, .tLeByte, .tHexInput, .tHexItem]

/-! ## Every legal configuration -/

/-- R5 (derived: D9, U1, log 6). The machine that takes `MAX_PARAMS` and `HAS_HEXSTR` as an argument is, at the values R5
gives, this hardware: the same meaning of every instruction, the same step, the same run. -/
def Obligations.StandardConfigurationIsThisHardware : Prop :=
  (∀ (i : Instr) (s : State), exec i s = execWith Config.standard i s) ∧
  (∀ s : State, step s = stepWith Config.standard s) ∧
  ∀ (k : Nat) (s : State), Sys2Proof.core.run k s = (coreWith Config.standard).run k s

/-- R5, R29 (derived: D9). At every legal `MAX_PARAMS` every step keeps the packet invariant; and where READ_DATA's literal
bound 2 fits PBUF (`MAX_PARAMS` not 0 or 1: the model's choice, log 7) every instruction answers a next state. That a
refused one does is the model's reading of R198 (log 3). -/
def Obligations.EveryLegalConfigKeepsInvariant : Prop :=
  ∀ c : Config, c.Legal →
    (∀ s t : State, StateInv c s → stepWith c s = .next t → StateInv c t) ∧
    (2 ≤ c.maxParams → ∀ (i : Instr) (s : State), StateInv c s → ∃ t, execWith c i s = .next t)

/-- R5, R30, R124, R174 (derived: D9, D16). `MAX_PARAMS` is the ceiling at every legal configuration whose PBUF holds
READ_DATA's two parameters (log 7): an opcode's count within its row builds the packet, TOBYTES and PARSE give it back, a
count outside the row is `V_COUNT`, and a received frame with more than `MAX_PARAMS` parameters is `V_RX_COUNT`. -/
def Obligations.MaxParamsIsTheCeilingEverywhere : Prop :=
  ∀ (c : Config) (s : State) (id : Byte) (o : Opcode), c.Legal → 2 ≤ c.maxParams → s.pbuf.wf → id.toNat ≤ 0xFE →
    (∀ ps : List Byte, (lut c o).min ≤ ps.length → ps.length ≤ (lut c o).max → ∃ t u : State,
      execWith c (.build (byteOperand id) (.int o.value) (ps.map byteOperand)) s = .next t ∧ heldParams t = ps ∧
      t.outcome = some (.success .built) ∧
      execWith c .toBytes t = .next u ∧ u.outcome = some (.success (.frame (frameOf id o.byte ps))) ∧
      execWith c (.parse (frameOf id o.byte ps)) u =
        .next { u with outcome := some (.success (.parsed ⟨id, o.byte, ps⟩)) }) ∧
    (∀ vs : List Int, vs.length < (lut c o).min ∨ (lut c o).max < vs.length →
      execWith c (.build (byteOperand id) (.int o.value) (vs.map .int)) s =
        .next { s with outcome := some (.error ⟨.vCount, ⟨.parameters, .int vs.length,
          .range (lut c o).min (lut c o).max⟩⟩) }) ∧
    ∀ (eb ck : Byte) (ps : List Byte), c.maxParams < ps.length → ps.length ≤ 253 →
      execWith c (.parse ([0xFF#8, 0xFF#8, id, BitVec.ofNat 8 (ps.length + 2), eb] ++ ps ++ [ck])) s =
        .next { s with outcome := some (.error ⟨.vRxCount, ⟨.parameters, .int ps.length, .range 0 c.maxParams⟩⟩) }
end

