-- ==== Sys2Proof/Laws/Decode.lean ====
section
/-! SUPPORT. The opcode map and the decoder, said once. -/

namespace Sys2Proof

theorem opcode_mem_all (o : Opcode) : o ∈ Opcode.all := by cases o <;> decide

/-- The opcode map is the inverse of the opcodes' values. -/
theorem opcodeOf?_eq_some {v : Int} {o : Opcode} : opcodeOf? v = some o ↔ v = o.value := by
  constructor
  · intro h
    have := List.find?_some h
    exact (of_decide_eq_true this).symm
  · rintro rfl
    cases o <;> decide

@[simp] theorem opcodeOf?_value (o : Opcode) : opcodeOf? o.value = some o := opcodeOf?_eq_some.2 rfl

theorem opcodeOf?_eq_none {v : Int} : opcodeOf? v = none ↔ ∀ o : Opcode, v ≠ o.value := by
  rw [Option.eq_none_iff_forall_ne_some]
  exact forall_congr' fun o => by rw [Ne, opcodeOf?_eq_some]

theorem opcode_byte_injective : Function.Injective Opcode.byte := by
  intro a b h
  cases a <;> cases b <;> first | rfl | exact absurd h (by decide)

@[simp] theorem buildInstr_value (o : Opcode) (id : Operand) (ps : List Operand) :
    buildInstr id (.int o.value) ps = o.instr id ps := by simp [buildInstr]

@[simp] theorem buildInstr_nonint (id : Operand) (ps : List Operand) :
    buildInstr id .nonint ps = .build id .nonint ps := rfl

theorem buildInstr_other {v : Int} (h : opcodeOf? v = none) (id : Operand) (ps : List Operand) :
    buildInstr id (.int v) ps = .build id (.int v) ps := by simp [buildInstr, h]

/-- What BUILD's operands decode to: an opcode's instruction, or the general BUILD. -/
theorem buildInstr_cases (id op : Operand) (ps : List Operand) :
    (∃ o : Opcode, op = .int o.value ∧ buildInstr id op ps = o.instr id ps) ∨
      buildInstr id op ps = .build id op ps := by
  cases op with
  | nonint => exact .inr rfl
  | int v =>
    cases h : opcodeOf? v with
    | some o =>
      obtain rfl := opcodeOf?_eq_some.1 h
      exact .inl ⟨o, rfl, buildInstr_value o id ps⟩
    | none => exact .inr (buildInstr_other h id ps)

@[simp] theorem encode_opcode_instr (o : Opcode) (id : Operand) (ps : List Operand) :
    encode (o.instr id ps) = ⟨0b000#3, [.val id, .val (.int o.value), .seq ps]⟩ := by cases o <;> rfl

theorem wellFormed_opcode_instr (o : Opcode) (id : Operand) (ps : List Operand) :
    WellFormed (o.instr id ps) = true := by cases o <;> rfl

end Sys2Proof
end

