-- ==== Sys2Proof/Laws/Checks.lean ====
section
/-! SUPPORT. The operand checks, said once: when each succeeds, with what, and which cause it raises. -/

namespace Sys2Proof.Machine

/-! ## A sequence of checks: it succeeds when all do, and fails at the first that fails -/

theorem bind_ok {ε α β : Type} {x : Except ε α} {f : α → Except ε β} {b : β} :
    (x >>= f) = .ok b ↔ ∃ a, x = .ok a ∧ f a = .ok b := by
  cases x <;> simp [bind, Except.bind]

theorem bind_error {ε α β : Type} {x : Except ε α} {f : α → Except ε β} {e : ε} :
    (x >>= f) = .error e ↔ x = .error e ∨ ∃ a, x = .ok a ∧ f a = .error e := by
  cases x <;> simp [bind, Except.bind]

theorem pure_ok {ε α : Type} {a b : α} : (pure a : Except ε α) = .ok b ↔ a = b := by simp [pure, Except.pure]

theorem pure_error {ε α : Type} {a : α} {e : ε} : (pure a : Except ε α) = .error e ↔ False := by
  simp [pure, Except.pure]

theorem require_ok {b : Bool} {e : ErrorRecord} {u : Unit} : require b e = .ok u ↔ b = true := by
  cases b <;> simp [require]

theorem require_error {b : Bool} {e e' : ErrorRecord} : require b e = .error e' ↔ b = false ∧ e = e' := by
  cases b <;> simp [require]

/-! ## Types and ranges -/

theorem requireInt_ok {cause : Cause} {f : Field} {x : Operand} {v : Int} :
    requireInt cause f x = .ok v ↔ x = .int v := by cases x <;> simp [requireInt]

theorem requireInt_error {cause : Cause} {f : Field} {x : Operand} {e : ErrorRecord} :
    requireInt cause f x = .error e ↔ x = .nonint ∧ ⟨cause, ⟨f, .nonInteger, .integer⟩⟩ = e := by
  cases x <;> simp [requireInt]

theorem requireInts_ok {cause : Cause} {f : Nat → Field} {k : Nat} {xs : List Operand} {vs : List Int} :
    requireInts cause f k xs = .ok vs ↔ xs = vs.map .int := by
  induction xs generalizing k vs with
  | nil => cases vs <;> simp [requireInts]
  | cons x xs ih =>
    simp only [requireInts, bind_ok, pure_ok, requireInt_ok, ih]
    constructor
    · rintro ⟨v, rfl, ws, rfl, rfl⟩; rfl
    · intro h
      cases vs with
      | nil => simp at h
      | cons v ws =>
        simp only [List.map_cons, List.cons.injEq] at h
        exact ⟨v, h.1, ws, h.2, rfl⟩

/-- The type check of a sequence fails at its first `nonint`. -/
theorem requireInts_error {cause : Cause} {f : Nat → Field} {k : Nat} {xs : List Operand} {e : ErrorRecord} :
    requireInts cause f k xs = .error e ↔
      ∃ (vs : List Int) (rest : List Operand), xs = vs.map .int ++ .nonint :: rest ∧
        ⟨cause, ⟨f (k + vs.length), .nonInteger, .integer⟩⟩ = e := by
  induction xs generalizing k with
  | nil => simp [requireInts]
  | cons x xs ih =>
    simp only [requireInts, bind_error, pure_error, requireInt_error, requireInt_ok, ih, and_false, exists_false,
      or_false]
    constructor
    · rintro (⟨rfl, rfl⟩ | ⟨v, rfl, vs, rest, rfl, rfl⟩)
      · exact ⟨[], xs, rfl, rfl⟩
      · exact ⟨v :: vs, rest, rfl, by rw [List.length_cons, Nat.add_right_comm, Nat.add_assoc]⟩
    · rintro ⟨vs, rest, h, rfl⟩
      cases vs with
      | nil =>
        simp only [List.map_nil, List.nil_append, List.cons.injEq] at h
        exact .inl ⟨h.1, rfl⟩
      | cons w ws =>
        simp only [List.map_cons, List.cons_append, List.cons.injEq] at h
        exact .inr ⟨w, h.1, ws, rest, h.2, by rw [List.length_cons, Nat.add_right_comm, Nat.add_assoc]⟩

@[simp] theorem inRange_iff {lo hi v : Int} : inRange lo hi v = true ↔ lo ≤ v ∧ v ≤ hi := by
  simp [inRange]

@[simp] theorem isByte_iff {v : Int} : isByte v = true ↔ 0 ≤ v ∧ v ≤ 255 := inRange_iff

theorem offending_eq_nil {vs : List Int} : offending vs = [] ↔ ∀ v ∈ vs, 0 ≤ v ∧ v ≤ 255 := by
  simp only [offending, List.filter_eq_nil_iff, Bool.not_eq_true', Bool.not_eq_false, isByte_iff]

/-- A byte in range keeps its value. -/
theorem toByte_toNat {v : Int} (h : 0 ≤ v ∧ v ≤ 255) : ((toByte v).toNat : Int) = v := by
  have : v % 2 ^ 8 = v := Int.emod_eq_of_lt h.1 (by omega)
  rw [toByte, BitVec.toNat_ofInt]
  omega

@[simp] theorem toByte_natCast (b : Byte) : toByte (b.toNat : Int) = b := by
  apply BitVec.eq_of_toNat_eq
  have := toByte_toNat (v := (b.toNat : Int)) ⟨by omega, by have := b.isLt; omega⟩
  exact_mod_cast this

theorem requireBytes_ok {cause : Cause} {f : Field} {vs : List Int} {bs : List Byte} :
    requireBytes cause f vs = .ok bs ↔ (∀ v ∈ vs, 0 ≤ v ∧ v ≤ 255) ∧ vs.map toByte = bs := by
  rw [← offending_eq_nil, requireBytes]
  by_cases h : offending vs = [] <;> simp [h]

theorem requireBytes_error {cause : Cause} {f : Field} {vs : List Int} {e : ErrorRecord} :
    requireBytes cause f vs = .error e ↔
      offending vs ≠ [] ∧ ⟨cause, ⟨f, .ints (offending vs), .range 0x00 0xFF⟩⟩ = e := by
  rw [requireBytes]
  by_cases h : offending vs = [] <;> simp [h]

/-! ## The checks of BUILD -/

theorem checkId_ok {i : Int} {b : Byte} : checkId i = .ok b ↔ (0 ≤ i ∧ i ≤ 0xFE) ∧ toByte i = b := by
  unfold checkId
  by_cases h : inRange 0 (Config.idMax : Int) i = true
  · have := inRange_iff.1 h
    simp only [h, if_true, Except.ok.injEq]
    exact (and_iff_right this).symm
  · have h' : ¬ (0 ≤ i ∧ i ≤ (Config.idMax : Int)) := fun x => h (inRange_iff.2 x)
    simp only [h]
    exact iff_of_false (by simp) fun x => h' x.1

theorem checkId_error {i : Int} {e : ErrorRecord} :
    checkId i = .error e ↔ ¬ (0 ≤ i ∧ i ≤ 0xFE) ∧ ⟨.vId, ⟨.id, .int i, .range 0x00 0xFE⟩⟩ = e := by
  unfold checkId
  by_cases h : inRange 0 (Config.idMax : Int) i = true
  · have := inRange_iff.1 h
    simp only [h, if_true]
    exact iff_of_false (by simp) fun x => x.1 this
  · have h' : ¬ (0 ≤ i ∧ i ≤ (Config.idMax : Int)) := fun x => h (inRange_iff.2 x)
    simp only [h]
    exact ⟨fun x => ⟨h', Except.error.inj x⟩, fun x => congrArg Except.error x.2⟩

theorem checkInstruction_ok {op : Int} {o : Opcode} : checkInstruction op = .ok o ↔ op = o.value := by
  rw [← opcodeOf?_eq_some, checkInstruction]
  cases opcodeOf? op <;> simp

theorem checkInstruction_error {op : Int} {e : ErrorRecord} :
    checkInstruction op = .error e ↔
      (∀ o : Opcode, op ≠ o.value) ∧ ⟨.vInstr, ⟨.instruction, .int op, .opcodes (Opcode.all.map Opcode.byte)⟩⟩ = e := by
  rw [← opcodeOf?_eq_none, checkInstruction]
  cases opcodeOf? op <;> simp

theorem checkCount_ok {c : Config} {o : Opcode} {n : Nat} {u : Unit} :
    checkCount c o n = .ok u ↔ (lut c o).min ≤ n ∧ n ≤ (lut c o).max := by
  rw [checkCount]
  by_cases h : (lut c o).min ≤ n ∧ n ≤ (lut c o).max <;> simp [h]

theorem checkCount_error {c : Config} {o : Opcode} {n : Nat} {e : ErrorRecord} :
    checkCount c o n = .error e ↔ ¬ ((lut c o).min ≤ n ∧ n ≤ (lut c o).max) ∧
      ⟨.vCount, ⟨.parameters, .int n, .range (lut c o).min (lut c o).max⟩⟩ = e := by
  rw [checkCount]
  by_cases h : (lut c o).min ≤ n ∧ n ≤ (lut c o).max <;> simp [h]

theorem checkTypes_ok {id op : Operand} {ps : List Operand} {r : Int × Int × List Int} :
    checkTypes id op ps = .ok r ↔ id = .int r.1 ∧ op = .int r.2.1 ∧ ps = r.2.2.map .int := by
  simp only [checkTypes, bind_ok, pure_ok, requireInt_ok, requireInts_ok]
  constructor
  · rintro ⟨i, rfl, v, rfl, vs, rfl, rfl⟩; exact ⟨rfl, rfl, rfl⟩
  · rintro ⟨h1, h2, h3⟩; exact ⟨_, h1, _, h2, _, h3, rfl⟩

/-- The type check's failures, in the order the operands are examined. -/
theorem checkTypes_error {id op : Operand} {ps : List Operand} {e : ErrorRecord} :
    checkTypes id op ps = .error e ↔
      (id = .nonint ∧ ⟨.tId, ⟨.id, .nonInteger, .integer⟩⟩ = e) ∨
      ∃ i, id = .int i ∧ ((op = .nonint ∧ ⟨.tInstr, ⟨.instruction, .nonInteger, .integer⟩⟩ = e) ∨
        ∃ v, op = .int v ∧ ∃ (vs : List Int) (rest : List Operand), ps = vs.map .int ++ .nonint :: rest ∧
          ⟨.tParam, ⟨.parameter vs.length, .nonInteger, .integer⟩⟩ = e) := by
  simp only [checkTypes, bind_error, pure_error, requireInt_ok, requireInt_error, requireInts_error, Nat.zero_add,
    and_false, exists_false, or_false]

/-- Checks 2 to 5 pass exactly on this set of operands. -/
theorem checkValues_ok {c : Config} {i v : Int} {vs : List Int} {r : PacketFields} :
    checkValues c i v vs = .ok r ↔
      (0 ≤ i ∧ i ≤ 0xFE) ∧ v = r.op.value ∧ ((lut c r.op).min ≤ vs.length ∧ vs.length ≤ (lut c r.op).max) ∧
        (∀ x ∈ vs, 0 ≤ x ∧ x ≤ 255) ∧ toByte i = r.id ∧ vs.map toByte = r.params := by
  simp only [checkValues, bind_ok, pure_ok, checkId_ok, checkInstruction_ok, checkCount_ok, requireBytes_ok]
  constructor
  · rintro ⟨b, ⟨hi, rfl⟩, o, rfl, _, hn, bs, ⟨hb, rfl⟩, rfl⟩; exact ⟨hi, rfl, hn, hb, rfl, rfl⟩
  · rintro ⟨hi, hv, hn, hb, h1, h2⟩; exact ⟨_, ⟨hi, h1⟩, _, hv, (), hn, _, ⟨hb, h2⟩, rfl⟩

/-- Which of checks 2 to 5 fails first, and what it raises. -/
theorem checkValues_error {c : Config} {i v : Int} {vs : List Int} {e : ErrorRecord} :
    checkValues c i v vs = .error e ↔
    (¬ (0 ≤ i ∧ i ≤ 0xFE) ∧ ⟨.vId, ⟨.id, .int i, .range 0x00 0xFE⟩⟩ = e) ∨
    (0 ≤ i ∧ i ≤ 0xFE) ∧ (((∀ o : Opcode, v ≠ o.value) ∧
        ⟨.vInstr, ⟨.instruction, .int v, .opcodes (Opcode.all.map Opcode.byte)⟩⟩ = e) ∨
      ∃ o : Opcode, v = o.value ∧ ((¬ ((lut c o).min ≤ vs.length ∧ vs.length ≤ (lut c o).max) ∧
          ⟨.vCount, ⟨.parameters, .int vs.length, .range (lut c o).min (lut c o).max⟩⟩ = e) ∨
        ((lut c o).min ≤ vs.length ∧ vs.length ≤ (lut c o).max) ∧ offending vs ≠ [] ∧
          ⟨.vParam, ⟨.parameters, .ints (offending vs), .range 0x00 0xFF⟩⟩ = e)) := by
  simp only [checkValues, bind_error, pure_error, checkId_ok, checkId_error, checkInstruction_ok,
    checkInstruction_error, checkCount_ok, checkCount_error, requireBytes_error, and_false, exists_false, or_false]
  constructor
  · rintro (h | ⟨_, ⟨hi, -⟩, h | ⟨o, ho, h | ⟨_, hc, h⟩⟩⟩)
    · exact .inl h
    · exact .inr ⟨hi, .inl h⟩
    · exact .inr ⟨hi, .inr ⟨o, ho, .inl h⟩⟩
    · exact .inr ⟨hi, .inr ⟨o, ho, .inr ⟨hc, h⟩⟩⟩
  · rintro (h | ⟨hi, h | ⟨o, ho, h | ⟨hc, h⟩⟩⟩)
    · exact .inl h
    · exact .inr ⟨_, ⟨hi, rfl⟩, .inl h⟩
    · exact .inr ⟨_, ⟨hi, rfl⟩, .inr ⟨o, ho, .inl h⟩⟩
    · exact .inr ⟨_, ⟨hi, rfl⟩, .inr ⟨o, ho, .inr ⟨(), hc, h⟩⟩⟩

/-- BUILD's checks on operands that pass check 1. -/
@[simp] theorem buildChecks_ints (c : Config) (i v : Int) (vs : List Int) :
    buildChecks c (.int i) (.int v) (vs.map .int) = checkValues c i v vs := by
  have h : checkTypes (.int i) (.int v) (vs.map .int) = .ok (i, v, vs) := checkTypes_ok.2 ⟨rfl, rfl, rfl⟩
  rw [buildChecks, h]; rfl

/-- Everything BUILD's checks can do: they fail by type, or they are the checks on the values. -/
theorem buildChecks_cases (c : Config) (id op : Operand) (ps : List Operand) :
    (∃ e, checkTypes id op ps = .error e ∧ buildChecks c id op ps = .error e) ∨
    (∃ i v vs, id = .int i ∧ op = .int v ∧ ps = vs.map .int ∧ buildChecks c id op ps = checkValues c i v vs) := by
  cases h : checkTypes id op ps with
  | error e => exact .inl ⟨e, rfl, by rw [buildChecks, h]; rfl⟩
  | ok r =>
    obtain ⟨h1, h2, h3⟩ := checkTypes_ok.1 h
    exact .inr ⟨_, _, _, h1, h2, h3, by rw [buildChecks, h]; rfl⟩

end Sys2Proof.Machine
end

