-- ==== Sys2Proof/Laws/Memory.lean ====
section
/-! SUPPORT. The laws of PBUF: read after write, every other index left alone, and the canonical form kept. -/

namespace Sys2Proof.Machine

@[simp] theorem read_nil (k : Nat) : Memory.read [] k = unlistedByte := rfl

theorem read_of_below {m : Memory} {k : Nat} (h : ∀ cell ∈ m, k < cell.1) : m.read k = unlistedByte := by
  induction m with
  | nil => rfl
  | cons c m ih =>
    have hk : k < c.1 := h c (by simp)
    have : c.1 ≠ k := by omega
    simp only [Memory.read, this, if_false]
    exact ih fun x hx => h x (by simp [hx])

/-- A write leaves every other index alone, whatever the memory. -/
theorem read_write_other (m : Memory) {k j : Nat} (v : Byte) (h : j ≠ k) : (m.write k v).read j = m.read j := by
  induction m with
  | nil => by_cases hv : v = unlistedByte <;> simp [Memory.write, hv, Memory.read, Ne.symm h]
  | cons c m ih =>
    obtain ⟨a, b⟩ := c
    simp only [Memory.write]
    split_ifs with h1 h2 h3 h4
    · rfl
    · simp [Memory.read, Ne.symm h]
    · subst h3; simp [Memory.read, Ne.symm h]
    · subst h3; simp [Memory.read, Ne.symm h]
    · simp only [Memory.read, ih]

/-- Reading the index just written gives the value written. -/
theorem read_write_same {m : Memory} (hm : m.wf) (k : Nat) (v : Byte) : (m.write k v).read k = v := by
  induction m with
  | nil => by_cases hv : v = unlistedByte <;> simp [Memory.write, hv, Memory.read]
  | cons c m ih =>
    obtain ⟨a, b⟩ := c
    obtain ⟨hp, hd⟩ := hm
    rw [List.pairwise_cons] at hp
    have hm' : Memory.wf m := ⟨hp.2, fun x hx => hd x (by simp [hx])⟩
    simp only [Memory.write]
    split_ifs with h1 h2 h3 h4
    · rw [h2]; refine read_of_below fun x hx => ?_
      rcases List.mem_cons.1 hx with rfl | hx
      · exact h1
      · exact Nat.lt_trans h1 (hp.1 x hx)
    · simp [Memory.read]
    · subst h3; rw [h4]; exact read_of_below fun x hx => hp.1 x hx
    · simp [Memory.read]
    · simp [Memory.read, show a ≠ k from fun e => h3 e.symm, ih hm']

theorem mem_write {m : Memory} {k : Nat} {v : Byte} {x : Host.Cell} (h : x ∈ m.write k v) :
    x = (k, v) ∧ v ≠ unlistedByte ∨ x ∈ m := by
  induction m with
  | nil => by_cases hv : v = unlistedByte <;> simp_all [Memory.write]
  | cons c m ih =>
    obtain ⟨a, b⟩ := c
    simp only [Memory.write] at h
    split_ifs at h with h1 h2 h3 h4
    · exact .inr h
    · rcases List.mem_cons.1 h with h | h
      · exact .inl ⟨h, h2⟩
      · exact .inr h
    · exact .inr (List.mem_cons_of_mem _ h)
    · rcases List.mem_cons.1 h with h | h
      · exact .inl ⟨h, h4⟩
      · exact .inr (List.mem_cons_of_mem _ h)
    · rcases List.mem_cons.1 h with h | h
      · exact .inr (by simp [h])
      · exact (ih h).imp_right (List.mem_cons_of_mem _)

/-- A write keeps the canonical form. -/
theorem write_wf {m : Memory} (hm : m.wf) (k : Nat) (v : Byte) : (m.write k v).wf := by
  refine ⟨?_, fun x hx => ?_⟩
  · obtain ⟨hp, -⟩ := hm
    induction m with
    | nil => by_cases hv : v = unlistedByte <;> simp [Memory.write, hv]
    | cons c m ih =>
      obtain ⟨a, b⟩ := c
      have hp' := List.pairwise_cons.1 hp
      simp only [Memory.write]
      split_ifs with h1 h2 h3 h4
      · exact hp
      · refine List.pairwise_cons.2 ⟨fun x hx => ?_, hp⟩
        rcases List.mem_cons.1 hx with rfl | hx
        · exact h1
        · exact Nat.lt_trans h1 (hp'.1 x hx)
      · exact hp'.2
      · subst h3; exact List.pairwise_cons.2 ⟨hp'.1, hp'.2⟩
      · refine List.pairwise_cons.2 ⟨fun x hx => ?_, ih hp'.2⟩
        rcases mem_write hx with ⟨rfl, -⟩ | hx
        · show a < k; omega
        · exact hp'.1 x hx
  · rcases mem_write hx with ⟨rfl, h⟩ | hx
    · exact h
    · exact hm.2 x hx

theorem write_within {cap : Nat} {m : Memory} (hm : m.within cap) {k : Nat} (hk : k < cap) (v : Byte) :
    (m.write k v).within cap := by
  intro x hx
  rcases mem_write hx with ⟨rfl, -⟩ | hx
  · exact hk
  · exact hm x hx

/-! ## The loops of BUILD and TOBYTES -/

/-- Everything `loadParams` can do: the bytes at ascending indices, exactly when they all exist. -/
theorem loadParams_eq_some {c : Config} {m : Memory} {k n : Nat} {bs : List Byte} :
    loadParams c m k n = some bs ↔
      (n = 0 ∨ k + n ≤ c.maxParams) ∧ bs = (List.range n).map (fun j => m.read (k + j)) := by
  induction n generalizing k bs with
  | zero => simp [loadParams, eq_comm]
  | succ n ih =>
    rw [List.range_succ_eq_map]
    simp only [loadParams, pbufRead]
    by_cases hk : k < c.maxParams
    · simp only [hk, if_true]
      cases hl : loadParams c m (k + 1) n with
      | none =>
        have := (ih (k := k + 1) (bs := (List.range n).map (fun j => m.read (k + 1 + j)))).not.1 (by simp [hl])
        simp only [and_true] at this
        simp; omega
      | some tl =>
        obtain ⟨h1, rfl⟩ := ih.1 hl
        have hb : n + 1 = 0 ∨ k + (n + 1) ≤ c.maxParams := by omega
        simp only [hb, true_and, Option.some.injEq]
        simp [Function.comp_def, Nat.add_assoc, Nat.add_comm 1, eq_comm]
    · simp [hk]; omega

/-- Everything `storeParams` can do: it succeeds exactly when every index exists. -/
theorem storeParams_isSome {c : Config} {m : Memory} {k : Nat} {vs : List Byte} :
    (storeParams c m k vs).isSome ↔ vs = [] ∨ k + vs.length ≤ c.maxParams := by
  induction vs generalizing m k with
  | nil => simp [storeParams]
  | cons v vs ih =>
    by_cases hk : k < c.maxParams
    · simp only [storeParams, pbufWrite, hk, if_true, ih, List.length_cons]
      cases vs <;> simp <;> omega
    · simp [storeParams, pbufWrite, hk]; omega

theorem storeParams_wf {c : Config} {m m' : Memory} {k : Nat} {vs : List Byte} (hm : m.wf)
    (h : storeParams c m k vs = some m') : m'.wf := by
  induction vs generalizing m k with
  | nil => cases h; exact hm
  | cons v vs ih =>
    by_cases hk : k < c.maxParams
    · simp only [storeParams, pbufWrite, hk, if_true] at h
      exact ih (write_wf hm k v) h
    · simp [storeParams, pbufWrite, hk] at h

theorem storeParams_within {c : Config} {m m' : Memory} {k : Nat} {vs : List Byte} (hm : m.within c.maxParams)
    (h : storeParams c m k vs = some m') : m'.within c.maxParams := by
  induction vs generalizing m k with
  | nil => cases h; exact hm
  | cons v vs ih =>
    by_cases hk : k < c.maxParams
    · simp only [storeParams, pbufWrite, hk, if_true] at h
      exact ih (write_within hm hk v) h
    · simp [storeParams, pbufWrite, hk] at h

/-- The store writes its own indices and nothing else. -/
theorem storeParams_read_outside {c : Config} {m m' : Memory} {k : Nat} {vs : List Byte}
    (h : storeParams c m k vs = some m') {j : Nat} (hj : j < k ∨ k + vs.length ≤ j) : m'.read j = m.read j := by
  induction vs generalizing m k with
  | nil => cases h; rfl
  | cons v vs ih =>
    by_cases hk : k < c.maxParams
    · simp only [storeParams, pbufWrite, hk, if_true] at h
      simp only [List.length_cons] at hj
      rw [ih h (by omega), read_write_other _ _ (by omega)]
    · simp [storeParams, pbufWrite, hk] at h

/-- The stored bytes read back, in order. -/
theorem storeParams_read_inside {c : Config} {m m' : Memory} {k : Nat} {vs : List Byte} (hm : m.wf)
    (h : storeParams c m k vs = some m') : (List.range vs.length).map (fun j => m'.read (k + j)) = vs := by
  induction vs generalizing m k with
  | nil => rfl
  | cons v vs ih =>
    by_cases hk : k < c.maxParams
    · simp only [storeParams, pbufWrite, hk, if_true] at h
      have h0 : m'.read k = v := by
        rw [storeParams_read_outside h (by omega), read_write_same hm]
      have := ih (write_wf hm k v) h
      rw [List.length_cons, List.range_succ_eq_map]
      simp only [List.map_cons, List.map_map, Function.comp_def, Nat.add_zero, h0, List.cons.injEq, true_and]
      simpa [Nat.add_assoc, Nat.add_comm 1] using this
    · simp [storeParams, pbufWrite, hk] at h

/-- The same command stores into any two memories alike: both exist or neither does. -/
theorem storeParams_isSome_congr {c : Config} (m m' : Memory) {k : Nat} (vs : List Byte) :
    (storeParams c m k vs).isSome = (storeParams c m' k vs).isSome := by
  rw [Bool.eq_iff_iff, storeParams_isSome, storeParams_isSome]

end Sys2Proof.Machine
end

