-- ==== Sys2Proof/Laws/State.lean ====
section
/-! SUPPORT. One lemma per field per update of the state. -/

namespace Sys2Proof.Machine

variable (s : State) (o : CmdOutcome) (r : PacketFields) (m : Memory)

@[simp] theorem deliver_valid : (s.deliver o).valid = s.valid := rfl
@[simp] theorem deliver_id : (s.deliver o).id = s.id := rfl
@[simp] theorem deliver_instr : (s.deliver o).instr = s.instr := rfl
@[simp] theorem deliver_np : (s.deliver o).np = s.np := rfl
@[simp] theorem deliver_pbuf : (s.deliver o).pbuf = s.pbuf := rfl
@[simp] theorem deliver_host : (s.deliver o).host = s.host := rfl
@[simp] theorem deliver_outcome : (s.deliver o).outcome = some o := rfl

@[simp] theorem succeed_eq_deliver (v : Result) : s.succeed v = s.deliver (.success v) := rfl
@[simp] theorem raise_eq_deliver (e : ErrorRecord) : s.raise e = s.deliver (.error e) := rfl
@[simp] theorem refuse_eq_deliver (x : RefusalCause) : s.refuse x = s.deliver (.refusal x) := rfl

@[simp] theorem hold_valid : (s.hold r m).valid = true := rfl
@[simp] theorem hold_id : (s.hold r m).id = r.id := rfl
@[simp] theorem hold_instr : (s.hold r m).instr = r.op.byte := rfl
@[simp] theorem hold_np : (s.hold r m).np = BitVec.ofNat 8 r.params.length := rfl
@[simp] theorem hold_pbuf : (s.hold r m).pbuf = m := rfl
@[simp] theorem hold_host : (s.hold r m).host = s.host := rfl
@[simp] theorem hold_outcome : (s.hold r m).outcome = s.outcome := rfl

@[simp] theorem setValid_valid : (setValid s).valid = true := rfl
@[simp] theorem setValid_pbuf : (setValid s).pbuf = s.pbuf := rfl
@[simp] theorem setValid_host : (setValid s).host = s.host := rfl
@[simp] theorem clearValid_valid : (clearValid s).valid = false := rfl
@[simp] theorem clearValid_pbuf : (clearValid s).pbuf = s.pbuf := rfl
@[simp] theorem clearValid_host : (clearValid s).host = s.host := rfl

@[simp] theorem resetEvent_valid : (resetEvent s).valid = false := rfl
@[simp] theorem resetEvent_pbuf : (resetEvent s).pbuf = [] := rfl
@[simp] theorem resetEvent_host : (resetEvent s).host = s.host := rfl
@[simp] theorem resetEvent_outcome : (resetEvent s).outcome = none := rfl
@[simp] theorem resetEvent_id : (resetEvent s).id = State.reset.id := rfl
@[simp] theorem resetEvent_instr : (resetEvent s).instr = State.reset.instr := rfl
@[simp] theorem resetEvent_np : (resetEvent s).np = State.reset.np := rfl

@[simp] theorem present_host (c : Command) : (present s c).host = .command c :: s.host := rfl
@[simp] theorem present_pbuf (c : Command) : (present s c).pbuf = s.pbuf := rfl

@[simp] theorem finish_ok (v : Result) : finish s (.ok v) = .next (s.succeed v) := rfl
@[simp] theorem finish_error (e : ErrorRecord) : finish s (.error e) = .next (s.raise e) := rfl

/-- Everything `finish` can do: it answers a next state that differs from `s` in the outcome alone. -/
theorem finish_next (x : Except ErrorRecord Result) : ∃ o, finish s x = .next (s.deliver o) := by
  cases x with
  | ok v => exact ⟨_, rfl⟩
  | error e => exact ⟨_, rfl⟩

end Sys2Proof.Machine
end

