-- ==== Sys2Proof/Laws/Exec.lean ====
section
/-! SUPPORT. Everything each shared operation can do, said once; the provers cite these and do not unfold it. -/

namespace Sys2Proof.Machine

/-! ## BUILD -/

/-- If BUILD answers a next state, then a check failed and only the outcome changed, or all passed and the packet was
committed. -/
theorem buildWith_next {c : Config} {id op : Operand} {ps : List Operand} {s t : State}
    (h : buildWith c id op ps s = .next t) :
    (∃ e, buildChecks c id op ps = .error e ∧ t = s.deliver (.error e)) ∨
    (∃ r m, buildChecks c id op ps = .ok r ∧ storeParams c s.pbuf 0 r.params = some m ∧
      t = (s.hold r m).deliver (.success .built)) := by
  unfold buildWith at h
  cases hc : buildChecks c id op ps with
  | error e => simp only [hc, Host.Outcome.next.injEq] at h; exact .inl ⟨e, rfl, h.symm⟩
  | ok r =>
    simp only [hc, commit] at h
    cases hm : storeParams c s.pbuf 0 r.params with
    | none => simp [hm] at h
    | some m => simp only [hm, Host.Outcome.next.injEq] at h; exact .inr ⟨r, m, rfl, hm, h.symm⟩

theorem buildWith_error {c : Config} {id op : Operand} {ps : List Operand} {e : ErrorRecord}
    (h : buildChecks c id op ps = .error e) (s : State) :
    buildWith c id op ps s = .next (s.deliver (.error e)) := by simp [buildWith, h]

theorem buildWith_ok {c : Config} {id op : Operand} {ps : List Operand} {r : PacketFields} {s : State} {m : Memory}
    (h : buildChecks c id op ps = .ok r) (hm : storeParams c s.pbuf 0 r.params = some m) :
    buildWith c id op ps s = .next ((s.hold r m).deliver (.success .built)) := by simp [buildWith, h, commit, hm]

/-- A row's maximum never exceeds PBUF's capacity when the capacity is at least READ_DATA's literal 2 (log 7). -/
theorem lut_max_le {c : Config} (hc : 2 ≤ c.maxParams) (o : Opcode) : (lut c o).max ≤ c.maxParams := by
  cases o <;> simp [lut, hc]

/-- What BUILD's checks hand to the commit. -/
theorem buildChecks_ok {c : Config} {id op : Operand} {ps : List Operand} {r : PacketFields}
    (h : buildChecks c id op ps = .ok r) :
    r.id.toNat ≤ 0xFE ∧ (lut c r.op).min ≤ r.params.length ∧ r.params.length ≤ (lut c r.op).max ∧
      ps = r.params.map byteOperand ∧ id = byteOperand r.id ∧ op = .int r.op.value := by
  rcases buildChecks_cases c id op ps with ⟨e, -, he⟩ | ⟨i, v, vs, rfl, rfl, rfl, he⟩
  · simp [he] at h
  · obtain ⟨hi, rfl, hn, hb, h1, h2⟩ := checkValues_ok.1 (he ▸ h)
    have h3 := toByte_toNat (v := i) ⟨hi.1, by omega⟩
    rw [h1] at h3
    have h4 : r.params.length = vs.length := by rw [← h2, List.length_map]
    refine ⟨by omega, by omega, by omega, ?_, by simp only [byteOperand, h3], rfl⟩
    rw [← h2, List.map_map]
    refine List.map_congr_left fun x hx => ?_
    simp only [Function.comp_apply, byteOperand, toByte_toNat (hb x hx)]

/-- BUILD on operands that pass all five checks, whatever the memory. -/
theorem buildWith_commits {c : Config} (hc : 2 ≤ c.maxParams) {id op : Operand} {ps : List Operand} {r : PacketFields}
    (h : buildChecks c id op ps = .ok r) (s : State) :
    ∃ m, storeParams c s.pbuf 0 r.params = some m ∧
      buildWith c id op ps s = .next ((s.hold r m).deliver (.success .built)) := by
  obtain ⟨-, -, hn, -⟩ := buildChecks_ok h
  have : (storeParams c s.pbuf 0 r.params).isSome :=
    storeParams_isSome.2 (.inr (by have := lut_max_le hc r.op; omega))
  obtain ⟨m, hm⟩ := Option.isSome_iff_exists.1 this
  exact ⟨m, hm, buildWith_ok h hm⟩

/-- BUILD never stops at a configuration whose PBUF holds READ_DATA's two parameters. -/
theorem buildWith_completes {c : Config} (hc : 2 ≤ c.maxParams) (id op : Operand) (ps : List Operand) (s : State) :
    ∃ t, buildWith c id op ps s = .next t := by
  cases h : buildChecks c id op ps with
  | error e => exact ⟨_, buildWith_error h s⟩
  | ok r => obtain ⟨m, -, h⟩ := buildWith_commits hc h s; exact ⟨_, h⟩

@[simp] theorem opcodeWith_eq (c : Config) (o : Opcode) (id : Operand) (ps : List Operand) (s : State) :
    opcodeWith c o id ps s = buildWith c id (.int o.value) ps s := rfl

/-- Each opcode's meaning is BUILD with that opcode. -/
theorem exec_opcode (o : Opcode) (id : Operand) (ps : List Operand) (s : State) :
    exec (o.instr id ps) s = buildWith Config.standard id (.int o.value) ps s := by cases o <;> rfl

/-- Every instruction is BUILD by one of its spellings, or writes no packet. -/
theorem exec_isBuild {i : Instr} (h : isBuild i = true) :
    ∃ id op ps, paramCount i = ps.length ∧ (∀ s, exec i s = buildWith Config.standard id op ps s) ∧
      (operandsOf i = id :: op :: ps ∨ operandsOf i = id :: ps ∧ ∃ o : Opcode, op = .int o.value) := by
  cases i with
  | ping id ps => exact ⟨id, _, ps, rfl, fun _ => rfl, .inr ⟨rfl, _, rfl⟩⟩
  | readData id ps => exact ⟨id, _, ps, rfl, fun _ => rfl, .inr ⟨rfl, _, rfl⟩⟩
  | writeData id ps => exact ⟨id, _, ps, rfl, fun _ => rfl, .inr ⟨rfl, _, rfl⟩⟩
  | regWrite id ps => exact ⟨id, _, ps, rfl, fun _ => rfl, .inr ⟨rfl, _, rfl⟩⟩
  | action id ps => exact ⟨id, _, ps, rfl, fun _ => rfl, .inr ⟨rfl, _, rfl⟩⟩
  | reset id ps => exact ⟨id, _, ps, rfl, fun _ => rfl, .inr ⟨rfl, _, rfl⟩⟩
  | syncWrite id ps => exact ⟨id, _, ps, rfl, fun _ => rfl, .inr ⟨rfl, _, rfl⟩⟩
  | build id op ps => exact ⟨id, op, ps, rfl, fun _ => rfl, .inl rfl⟩
  | toBytes | cksum | parse | le16enc | le16dec | hexstr => simp [isBuild] at h

/-! ## TOBYTES and the stateless commands -/

/-- If TOBYTES answers a next state, then no packet is held and it is refused, or it is the frame of the registers. -/
theorem toBytesWith_next {c : Config} {s t : State} (h : toBytesWith c s = .next t) :
    (s.valid = false ∧ t = s.deliver (.refusal .noPacket)) ∨
    (s.valid = true ∧ t = s.deliver (.success (.frame (frameOf s.id s.instr (heldParams s))))) := by
  unfold toBytesWith at h
  cases hv : s.valid with
  | false => simp only [hv] at h; exact .inl ⟨rfl, by simpa [eq_comm] using h⟩
  | true =>
    simp only [hv, if_true] at h
    cases hl : loadParams c s.pbuf 0 s.np.toNat with
    | none => simp [hl] at h
    | some bs =>
      simp only [hl, Host.Outcome.next.injEq] at h
      obtain ⟨-, rfl⟩ := loadParams_eq_some.1 hl
      simp only [Nat.zero_add] at h
      exact .inr ⟨rfl, h.symm⟩

theorem toBytesWith_none {c : Config} {s : State} (h : s.valid = false) :
    toBytesWith c s = .next (s.deliver (.refusal .noPacket)) := by simp [toBytesWith, h]

theorem toBytesWith_held {c : Config} {s : State} (h : s.valid = true) (hn : s.np.toNat ≤ c.maxParams) :
    toBytesWith c s = .next (s.deliver (.success (.frame (frameOf s.id s.instr (heldParams s))))) := by
  have : loadParams c s.pbuf 0 s.np.toNat = some (heldParams s) :=
    loadParams_eq_some.2 ⟨.inr (by omega), by simp [heldParams]⟩
  simp [toBytesWith, h, this]

/-- An instruction that is no BUILD changes the outcome alone. -/
theorem exec_not_build {i : Instr} (h : isBuild i = false) {s t : State} (hx : exec i s = .next t) :
    ∃ o, t = s.deliver o := by
  cases i with
  | toBytes =>
    rcases toBytesWith_next (c := Config.standard) hx with ⟨-, rfl⟩ | ⟨-, rfl⟩ <;> exact ⟨_, rfl⟩
  | cksum id ib ps => cases hx; exact ⟨_, rfl⟩
  | parse B =>
    obtain ⟨o, ho⟩ := finish_next s ((parseFrame Config.standard B).map .parsed)
    exact ⟨o, Host.Outcome.next.inj (hx.symm.trans ho)⟩
  | le16enc v =>
    obtain ⟨o, ho⟩ := finish_next s (le16encode v); exact ⟨o, Host.Outcome.next.inj (hx.symm.trans ho)⟩
  | le16dec l r =>
    obtain ⟨o, ho⟩ := finish_next s (le16decode l r); exact ⟨o, Host.Outcome.next.inj (hx.symm.trans ho)⟩
  | hexstr x =>
    obtain ⟨o, ho⟩ := finish_next s (hexText x); exact ⟨o, Host.Outcome.next.inj (hx.symm.trans ho)⟩
  | ping | readData | writeData | regWrite | action | reset | syncWrite | build => simp [isBuild] at h

/-! ## Any configuration -/

theorem execWith_opcode (c : Config) (o : Opcode) (id : Operand) (ps : List Operand) (s : State) :
    execWith c (o.instr id ps) s = buildWith c id (.int o.value) ps s := by cases o <;> rfl

/-- Everything an instruction can do at any configuration: a BUILD by one of its spellings, TOBYTES, or a next state that
differs in the outcome alone. -/
theorem execWith_cases (c : Config) (i : Instr) (s : State) :
    (∃ id op ps, execWith c i s = buildWith c id op ps s) ∨ execWith c i s = toBytesWith c s ∨
      ∃ o, execWith c i s = .next (s.deliver o) := by
  cases i with
  | toBytes => exact .inr (.inl rfl)
  | cksum id ib ps => exact .inr (.inr ⟨_, rfl⟩)
  | parse B => exact .inr (.inr (finish_next s _))
  | le16enc v => exact .inr (.inr (finish_next s _))
  | le16dec l h => exact .inr (.inr (finish_next s _))
  | hexstr x =>
    by_cases hx : c.hasHexstr = true
    · obtain ⟨o, ho⟩ := finish_next s (hexText x)
      exact .inr (.inr ⟨o, by simp only [execWith, hx, if_true]; exact ho⟩)
    · exact .inr (.inr ⟨.refusal .unknownCommand, by simp [execWith, hx]⟩)
  | ping | readData | writeData | regWrite | action | reset | syncWrite | build => exact .inl ⟨_, _, _, rfl⟩

/-! ## The step -/

theorem step_idle {s : State} (h : s.host = []) : step s = .next s := by simp [step, carryOut, fetch, h]

theorem step_reset {s : State} {rest : List HostEvent} (h : s.host = .reset :: rest) :
    step s = .next (resetEvent { s with host := rest }) := by simp [step, carryOut, fetch, h]

theorem step_undecoded {s : State} {cmd : Command} {rest : List HostEvent} {e : DecodeError}
    (h : s.host = .command cmd :: rest) (hd : decode cmd = .error e) :
    step s = undecoded e { s with host := rest } := by
  simp [step, carryOut, fetch, h, hd]

theorem step_decoded {s : State} {cmd : Command} {rest : List HostEvent} {i : Instr}
    (h : s.host = .command cmd :: rest) (hd : decode cmd = .ok i) :
    step s = exec i { s with host := rest } := by
  simp [step, carryOut, fetch, h, hd]

/-- Everything a step can do, by any decoder and meanings. -/
theorem carryOut_cases (dec : Command → Except DecodeError Instr) (run : Instr → State → Answer) (s : State) :
    (s.host = [] ∧ carryOut dec run s = .next s) ∨
    (∃ rest, s.host = .reset :: rest ∧ carryOut dec run s = .next (resetEvent { s with host := rest })) ∨
    (∃ cmd rest e, s.host = .command cmd :: rest ∧ dec cmd = .error e ∧
      carryOut dec run s = undecoded e { s with host := rest }) ∨
    (∃ cmd rest i, s.host = .command cmd :: rest ∧ dec cmd = .ok i ∧
      carryOut dec run s = run i { s with host := rest }) := by
  rcases hh : s.host with _ | ⟨ev, rest⟩
  · exact .inl ⟨rfl, by simp [carryOut, fetch, hh]⟩
  · cases ev with
    | reset => exact .inr (.inl ⟨rest, rfl, by simp [carryOut, fetch, hh]⟩)
    | command cmd =>
      cases hd : dec cmd with
      | error e => exact .inr (.inr (.inl ⟨cmd, rest, e, rfl, hd, by simp [carryOut, fetch, hh, hd]⟩))
      | ok i => exact .inr (.inr (.inr ⟨cmd, rest, i, rfl, hd, by simp [carryOut, fetch, hh, hd]⟩))

/-- Everything a step can do. -/
theorem step_cases (s : State) :
    (s.host = [] ∧ step s = .next s) ∨
    (∃ rest, s.host = .reset :: rest ∧ step s = .next (resetEvent { s with host := rest })) ∨
    (∃ cmd rest e, s.host = .command cmd :: rest ∧ decode cmd = .error e ∧
      step s = undecoded e { s with host := rest }) ∨
    (∃ cmd rest i, s.host = .command cmd :: rest ∧ decode cmd = .ok i ∧ step s = exec i { s with host := rest }) :=
  carryOut_cases decode exec s

end Sys2Proof.Machine
end

