-- ==== Sys2Proof/Laws/Frame.lean ====
section
/-! SUPPORT. The checksum, the frame and the decoder's checks, said once. -/

namespace Sys2Proof.Machine

/-- The checksum's value (R100, R6). -/
theorem cksum_toNat (id ib : Byte) (ps : List Byte) :
    (cksum id ib ps).toNat = 255 - checksumSum id ib ps % 256 := by
  rw [cksum, BitVec.toNat_ofNat]; omega

/-- The checksum sees the parameters through their sum and count alone. -/
theorem cksum_perm {ps qs : List Byte} (h : ps.Perm qs) (id ib : Byte) : cksum id ib ps = cksum id ib qs := by
  have h1 : sumBytes ps = sumBytes qs := (h.map BitVec.toNat).sum_nat
  have h2 : lengthOf ps = lengthOf qs := by simp [lengthOf, h.length_eq]
  simp [cksum, checksumSum, h1, h2]

@[simp] theorem frameOf_length (id ib : Byte) (ps : List Byte) : (frameOf id ib ps).length = ps.length + 6 := by
  simp [frameOf]

/-- The fields of a frame by index (R70). -/
theorem frameOf_fields (id ib : Byte) (ps : List Byte) :
    byteAt (frameOf id ib ps) 0 = Config.headerByte ∧ byteAt (frameOf id ib ps) 1 = Config.headerByte ∧
    byteAt (frameOf id ib ps) 2 = id ∧ byteAt (frameOf id ib ps) 3 = BitVec.ofNat 8 (lengthOf ps) ∧
    byteAt (frameOf id ib ps) 4 = ib ∧ paramsOf (frameOf id ib ps) = ps ∧
    byteAt (frameOf id ib ps) (ps.length + 5) = cksum id ib ps := by
  refine ⟨rfl, rfl, rfl, rfl, rfl, ?_, ?_⟩
  · simp [paramsOf, Config.frameOverhead, frameOf]
  · simp [byteAt, frameOf, List.getD_eq_getElem?_getD]

/-- PARSE accepts exactly when its six checks pass, and returns the fields at their indices. -/
theorem parseFrame_ok {c : Config} {B : List Byte} {p : Parsed} :
    parseFrame c B = .ok p ↔
      6 ≤ B.length ∧ byteAt B 0 = 0xFF#8 ∧ byteAt B 1 = 0xFF#8 ∧ (byteAt B 3).toNat = B.length - 4 ∧
      B.length - 6 ≤ c.maxParams ∧ byteAt B (B.length - 1) = cksum (byteAt B 2) (byteAt B 4) (paramsOf B) ∧
      (byteAt B 2).toNat ≤ 0xFE ∧ p = ⟨byteAt B 2, byteAt B 4, paramsOf B⟩ := by
  simp only [parseFrame, bind_ok, require_ok, pure_ok, exists_const, Bool.and_eq_true, beq_iff_eq, decide_eq_true_eq,
    and_assoc, @eq_comm _ _ p]
  rfl

end Sys2Proof.Machine
end

