-- ==== Sys2Proof/Laws/PerInstr.lean ====
section
/-! SUPPORT. Per-instruction laws. EncodeAssigned: the encoder never emits a command code this hardware leaves
unassigned (R85). -/

namespace Sys2Proof.Laws.EncodeAssigned

def Statement (i : Instr) : Prop := assigned Config.standard (encode i).code = true

theorem ping (id : Operand) (ps : List Operand) : Statement (.ping id ps) := rfl
theorem readData (id : Operand) (ps : List Operand) : Statement (.readData id ps) := rfl
theorem writeData (id : Operand) (ps : List Operand) : Statement (.writeData id ps) := rfl
theorem regWrite (id : Operand) (ps : List Operand) : Statement (.regWrite id ps) := rfl
theorem action (id : Operand) (ps : List Operand) : Statement (.action id ps) := rfl
theorem reset (id : Operand) (ps : List Operand) : Statement (.reset id ps) := rfl
theorem syncWrite (id : Operand) (ps : List Operand) : Statement (.syncWrite id ps) := rfl
theorem build (id op : Operand) (ps : List Operand) : Statement (.build id op ps) := rfl
theorem toBytes : Statement .toBytes := rfl
theorem cksum (id ib : Byte) (ps : List Byte) : Statement (.cksum id ib ps) := rfl
theorem parse (frame : List Byte) : Statement (.parse frame) := rfl
theorem le16enc (value : Operand) : Statement (.le16enc value) := rfl
theorem le16dec (low high : Operand) : Statement (.le16dec low high) := rfl
theorem hexstr (x : HexInput) : Statement (.hexstr x) := by cases x <;> rfl

end Sys2Proof.Laws.EncodeAssigned
end

