-- ==== Sys2Proof/Tests/Slice0.lean ====
section
/-! SUPPORT. Tests. Every expected value is a vector V<n>, a program P<n> or a printed example of spec/, never the model's
own answer; and one witness for the hypotheses of each statement that has some, at the boundaries of its clauses. -/

namespace Sys2Proof.Tests

open Sys2Proof.Machine

/-! ## Helpers -/

/-- The state an answer goes on in. -/
def after : Answer → State
  | .next t => t
  | _ => State.reset

/-- Did the step go on, and with which outcome? -/
def outcomeOf : Answer → Option CmdOutcome
  | .next t => t.outcome
  | _ => none

/-- The cause an answer raises (R193: kind and cause alone are normative). -/
def causeOf (a : Answer) : Option Cause :=
  match outcomeOf a with
  | some (.error e) => some e.cause
  | _ => none

/-- The integer operands of a list of values. -/
def ints (vs : List Int) : List Operand := vs.map .int

/-- P3 after its first step: `PKT = (1, 0x02, 0x03, 2)`, `PBUF[0..1] = 19 01`. -/
def heldWrite : State :=
  { State.reset with valid := true, id := 0x02#8, instr := 0x03#8, np := 0x02#8, pbuf := [(0, 0x19#8), (1, 0x01#8)] }

/-- BUILD, then TOBYTES. -/
def frameAfter (i : Instr) : Option CmdOutcome := outcomeOf (exec .toBytes (after (exec i State.reset)))

/-- `s` with these events still to come. -/
def withHost (s : State) (evs : List HostEvent) : State := { s with host := evs }

/-! ## Well-formedness and decoding -/

/-- The one check: `build` with an opcode of R80 is another spelling of that opcode's instruction. -/
theorem test_illFormed_build : WellFormed (.build (.int 1) (.int 0x01) []) = false := by decide
theorem test_wellFormed_build : WellFormed (.build (.int 1) (.int 0x84) []) = true := by decide

/-- One command per constructor, the code and the operands written from R85 and R80. -/
theorem test_decode_ping : decode ⟨0b000#3, [.val (.int 1), .val (.int 0b00000001), .seq []]⟩ = .ok (.ping (.int 1) []) := by
  decide
theorem test_decode_readData :
    decode ⟨0b000#3, [.val (.int 1), .val (.int 0b00000010), .seq (ints [0x24, 0x02])]⟩ =
      .ok (.readData (.int 1) (ints [0x24, 0x02])) := by decide
theorem test_decode_writeData :
    decode ⟨0b000#3, [.val (.int 1), .val (.int 0b00000011), .seq (ints [30, 188, 2])]⟩ =
      .ok (.writeData (.int 1) (ints [30, 188, 2])) := by decide
theorem test_decode_regWrite :
    decode ⟨0b000#3, [.val (.int 0), .val (.int 0b00000100), .seq (ints [30, 200, 0])]⟩ =
      .ok (.regWrite (.int 0) (ints [30, 200, 0])) := by decide
theorem test_decode_action :
    decode ⟨0b000#3, [.val (.int 254), .val (.int 0b00000101), .seq []]⟩ = .ok (.action (.int 254) []) := by decide
theorem test_decode_reset :
    decode ⟨0b000#3, [.val (.int 0), .val (.int 0b00000110), .seq []]⟩ = .ok (.reset (.int 0) []) := by decide
theorem test_decode_syncWrite :
    decode ⟨0b000#3, [.val (.int 254), .val (.int 0b10000011), .seq (ints [30, 1, 1, 16])]⟩ =
      .ok (.syncWrite (.int 254) (ints [30, 1, 1, 16])) := by decide
/-- R89: the parameters default to the empty sequence; 0x07 is no opcode. -/
theorem test_decode_build :
    decode ⟨0b000#3, [.val (.int 1), .val (.int 0x07)]⟩ = .ok (.build (.int 1) (.int 0x07) []) := by decide
theorem test_decode_toBytes : decode ⟨0b001#3, []⟩ = .ok .toBytes := by decide
theorem test_decode_cksum :
    decode ⟨0b010#3, [.byte 0xFD#8, .byte 0x01#8, .bytes []]⟩ = .ok (.cksum 0xFD#8 0x01#8 []) := by decide
theorem test_decode_parse : decode ⟨0b011#3, [.bytes [0xFF#8]]⟩ = .ok (.parse [0xFF#8]) := by decide
theorem test_decode_le16enc : decode ⟨0b100#3, [.val (.int 700)]⟩ = .ok (.le16enc (.int 700)) := by decide
theorem test_decode_le16dec :
    decode ⟨0b101#3, [.val (.int 188), .val (.int 2)]⟩ = .ok (.le16dec (.int 188) (.int 2)) := by decide
theorem test_decode_hexstr : decode ⟨0b110#3, [.seq (ints [255, 0])]⟩ = .ok (.hexstr (.items (ints [255, 0]))) := by
  decide
theorem test_decode_code7 : decode ⟨0b111#3, []⟩ = .error .unknownCommand := by decide
theorem test_decode_shape : decode ⟨0b001#3, [.val (.int 1)]⟩ = .error .operandShape := by decide

/-- The words of the opcode table: 0x83 is SYNC_WRITE's byte, 0 is BUILD's code, 3 bits alone are a command code. -/
theorem test_table_syncWrite : decodeTableWord 8 0x83 = some (.syncWrite (.int 0) (ints [0, 0, 0, 0])) := by decide
theorem test_table_codes : decodeTableWord 3 0b001 = some .toBytes ∧ decodeTableWord 8 0x84 = none := by decide
theorem test_fetch_word : outcomeOf (step (State.reset.withFetchWord 8 0x01)) = some (.success .built) := by decide

/-! ## BUILD and the opcodes: frames of part 3 of the vectors -/

/-- V1. -/
theorem test_ping : frameAfter (.ping (.int 0x01) []) =
    some (.success (.frame [0xFF#8, 0xFF#8, 0x01#8, 0x02#8, 0x01#8, 0xFB#8])) := by decide
/-- V16: a third 0xFF byte. -/
theorem test_ping_checksum_ff : frameAfter (.ping (.int 0xFD) []) =
    some (.success (.frame [0xFF#8, 0xFF#8, 0xFD#8, 0x02#8, 0x01#8, 0xFF#8])) := by decide
/-- V4. -/
theorem test_readData : frameAfter (.readData (.int 0x01) (ints [0x2B, 0x01])) =
    some (.success (.frame [0xFF#8, 0xFF#8, 0x01#8, 0x04#8, 0x02#8, 0x2B#8, 0x01#8, 0xCC#8])) := by decide
/-- V33. -/
theorem test_readData_count : causeOf (exec (.readData (.int 0x01) (ints [0x2B])) State.reset) = some .vCount := by decide
/-- V6. -/
theorem test_writeData : frameAfter (.writeData (.int 0x01) (ints [0x1E, 0xBC, 0x02])) =
    some (.success (.frame [0xFF#8, 0xFF#8, 0x01#8, 0x05#8, 0x03#8, 0x1E#8, 0xBC#8, 0x02#8, 0x1A#8])) := by decide
/-- V52: all offending values, in order. -/
theorem test_writeData_offending : outcomeOf (exec (.writeData (.int 0x01) (ints [0x12C, -1, 0x05])) State.reset) =
    some (.error ⟨.vParam, ⟨.parameters, .ints [300, -1], .range 0x00 0xFF⟩⟩) := by decide
/-- V9. -/
theorem test_regWrite : frameAfter (.regWrite (.int 0x00) (ints [0x1E, 0xC8, 0x00])) =
    some (.success (.frame [0xFF#8, 0xFF#8, 0x00#8, 0x05#8, 0x04#8, 0x1E#8, 0xC8#8, 0x00#8, 0x10#8])) := by decide
/-- V10. -/
theorem test_action : frameAfter (.action (.int 0xFE) []) =
    some (.success (.frame [0xFF#8, 0xFF#8, 0xFE#8, 0x02#8, 0x05#8, 0xFA#8])) := by decide
/-- V11. -/
theorem test_reset_opcode : frameAfter (.reset (.int 0x00) []) =
    some (.success (.frame [0xFF#8, 0xFF#8, 0x00#8, 0x02#8, 0x06#8, 0xF7#8])) := by decide
/-- V14. -/
theorem test_syncWrite : frameAfter (.syncWrite (.int 0xFE) (ints [0x1E, 0x01, 0x01, 0x10])) =
    some (.success (.frame [0xFF#8, 0xFF#8, 0xFE#8, 0x06#8, 0x83#8, 0x1E#8, 0x01#8, 0x01#8, 0x10#8, 0x48#8])) := by
  decide
/-- V40. -/
theorem test_syncWrite_count :
    causeOf (exec (.syncWrite (.int 0xFE) (ints [0x1E, 0x01, 0x01])) State.reset) = some .vCount := by decide
/-- V47 (0x183 is not truncated to 0x83); V61, V62, V65, V54, V64: the priority among the checks. -/
theorem test_build_checks :
    causeOf (exec (.build (.int 0x01) (.int 0x183) []) State.reset) = some .vInstr ∧
    causeOf (exec (.build (.int 0xFF) (.int 0x01) [.nonint]) State.reset) = some .tParam ∧
    causeOf (exec (.build (.int 0xFF) (.int 0x00) (ints [0x01])) State.reset) = some .vId ∧
    causeOf (exec (.build (.int 0x100) .nonint []) State.reset) = some .tInstr ∧
    causeOf (exec (.build (.int 0x01) (.int 0x01) (ints [0x1FF])) State.reset) = some .vCount ∧
    causeOf (exec (.build (.int 0x01) (.int 0x03) [.int 0x12C, .nonint]) State.reset) = some .tParam := by decide
/-- P3, step 3: a failed BUILD keeps the older packet. -/
theorem test_build_keeps : after (exec (.build (.int 0xFF) (.int 0x01) []) heldWrite) =
    { heldWrite with outcome := some (.error ⟨.vId, ⟨.id, .int 0xFF, .range 0x00 0xFE⟩⟩) } := by decide

/-! ## The other commands -/

/-- P3, step 2. -/
theorem test_toBytes : outcomeOf (exec .toBytes heldWrite) =
    some (.success (.frame [0xFF#8, 0xFF#8, 0x02#8, 0x04#8, 0x03#8, 0x19#8, 0x01#8, 0xDC#8])) := by decide
/-- V158. -/
theorem test_toBytes_noPacket : outcomeOf (exec .toBytes State.reset) = some (.refusal .noPacket) := by decide
/-- V74: the carry is discarded. -/
theorem test_cksum : outcomeOf (exec (.cksum 0xFD#8 0x01#8 []) State.reset) = some (.success (.byte 0xFF#8)) := by decide
/-- V76. -/
theorem test_cksum_params :
    outcomeOf (exec (.cksum 0x01#8 0x00#8 [0xBC#8, 0x02#8]) State.reset) = some (.success (.byte 0x3C#8)) := by decide
/-- V82. -/
theorem test_parse :
    outcomeOf (exec (.parse [0xFF#8, 0xFF#8, 0x01#8, 0x04#8, 0x00#8, 0xBC#8, 0x02#8, 0x3C#8]) State.reset) =
      some (.success (.parsed ⟨0x01#8, 0x00#8, [0xBC#8, 0x02#8]⟩)) := by decide
/-- V93, V97, V98, V111, V112: each check, and check 5 before check 6. -/
theorem test_parse_rejects :
    causeOf (exec (.parse [0xFF#8, 0xFF#8, 0x01#8, 0x02#8, 0x00#8]) State.reset) = some .vRxShort ∧
    causeOf (exec (.parse [0x00#8, 0xFF#8, 0xFF#8, 0x01#8, 0x02#8, 0x00#8, 0xFC#8]) State.reset) = some .vRxHeader ∧
    causeOf (exec (.parse [0xFF#8, 0xFF#8, 0x01#8, 0x03#8, 0x00#8, 0xFC#8]) State.reset) = some .vRxLength ∧
    causeOf (exec (.parse [0xFF#8, 0xFF#8, 0xFF#8, 0x02#8, 0x00#8, 0xFF#8]) State.reset) = some .vRxChecksum ∧
    causeOf (exec (.parse [0xFF#8, 0xFF#8, 0xFF#8, 0x02#8, 0x00#8, 0xFE#8]) State.reset) = some .vRxId := by decide
/-- V118. -/
theorem test_le16enc : outcomeOf (exec (.le16enc (.int 0x2BC)) State.reset) =
    some (.success (.bytePair 0xBC#8 0x02#8)) := by decide
/-- V126, V127, V129. -/
theorem test_le16enc_rejects :
    causeOf (exec (.le16enc (.int 0x10000)) State.reset) = some .vLeRange ∧
    causeOf (exec (.le16enc (.int (-1))) State.reset) = some .vLeRange ∧
    causeOf (exec (.le16enc .nonint) State.reset) = some .tLeValue := by decide
/-- V133. -/
theorem test_le16dec : outcomeOf (exec (.le16dec (.int 0xBC) (.int 0x02)) State.reset) =
    some (.success (.value 700)) := by decide
/-- V139, V143: low first, but every type check before every value check. -/
theorem test_le16dec_rejects :
    outcomeOf (exec (.le16dec (.int 0x100) (.int 0x100)) State.reset) =
      some (.error ⟨.vLeByte, ⟨.low, .int 0x100, .range 0x00 0xFF⟩⟩) ∧
    outcomeOf (exec (.le16dec (.int 0x100) .nonint) State.reset) =
      some (.error ⟨.tLeByte, ⟨.high, .nonInteger, .integer⟩⟩) := by decide
/-- V144, V147, V150. -/
theorem test_hexstr :
    outcomeOf (exec (.hexstr (.items (ints [0xFF, 0x00, 0x0A]))) State.reset) =
      some (.success (.text ['f', 'f', ',', '0', '0', ',', '0', 'a'])) ∧
    outcomeOf (exec (.hexstr (.one (.int 0x00))) State.reset) = some (.success (.text ['0', '0'])) ∧
    outcomeOf (exec (.hexstr (.items [])) State.reset) = some (.success (.text [])) := by decide
/-- V154, V155, V156. -/
theorem test_hexstr_rejects :
    outcomeOf (exec (.hexstr (.items (ints [0x00, 0x100, -1, 0x05]))) State.reset) =
      some (.error ⟨.vHexByte, ⟨.input, .ints [256, -1], .range 0x00 0xFF⟩⟩) ∧
    causeOf (exec (.hexstr (.one .nonint)) State.reset) = some .tHexInput ∧
    causeOf (exec (.hexstr (.items [.int 0x00, .nonint, .int 0x12C])) State.reset) = some .tHexItem := by decide

/-! ## The step -/

/-- V163. -/
theorem test_code7 : outcomeOf (step (withHost heldWrite [.command ⟨0b111#3, []⟩])) =
    some (.refusal .unknownCommand) := by decide
/-- V164, V165. -/
theorem test_reset_event :
    outcomeOf (step (after (step (withHost heldWrite [.reset, .command ⟨0b001#3, []⟩])))) =
      some (.refusal .noPacket) := by decide
/-- R5 at another ceiling, `MAX_PARAMS` 3: a WRITE_DATA with three parameters is built, one with four is `V_COUNT`. -/
theorem test_configured_ceiling :
    outcomeOf (stepWith ⟨3, true⟩ (withHost State.reset
      [.command ⟨0b000#3, [.val (.int 1), .val (.int 0x03), .seq (ints [1, 2, 3])]⟩])) = some (.success .built) ∧
    causeOf (stepWith ⟨3, true⟩ (withHost State.reset
      [.command ⟨0b000#3, [.val (.int 1), .val (.int 0x03), .seq (ints [1, 2, 3, 4])]⟩])) = some .vCount := by decide
/-- The codes of R192, first column. -/
theorem test_cause_codes : Cause.vId.code = 0x11#8 ∧ Cause.vRxId.code = 0x26#8 ∧ Cause.vHexByte.code = 0x43#8 ∧
    Cause.tLeByte.kind = .typeError := by decide

/-! ## Witnesses: a state and operands that meet every hypothesis of a statement -/

/-- The held state of P3 meets the invariant. -/
theorem witness_invariant : StateInv Config.standard heldWrite ∧ heldWrite.valid = true := by decide

theorem witness_ResetEventHoldsNoPacket : (withHost heldWrite [.reset, .reset]).host = .reset :: [.reset] := rfl

/-- A step from a good state that holds a packet. -/
theorem witness_StepKeepsPacketInvariant : ∃ t, StateInv Config.standard (withHost heldWrite [.command ⟨0b001#3, []⟩]) ∧
    step (withHost heldWrite [.command ⟨0b001#3, []⟩]) = .next t ∧ t.valid = true := ⟨_, by decide, rfl, rfl⟩

/-- The two ends of `Legal`. -/
theorem witness_BuildKeepsInvariantAtEveryLegalConfig :
    (∃ t, Config.Legal ⟨253, true⟩ ∧ StateInv ⟨253, true⟩ heldWrite ∧
      buildWith ⟨253, true⟩ (.int 1) (.int 3) (ints [1, 2]) heldWrite = .next t) ∧
    (∃ t, Config.Legal ⟨0, false⟩ ∧ StateInv ⟨0, false⟩ State.reset ∧
      buildWith ⟨0, false⟩ (.int 1) (.int 1) [] State.reset = .next t) := ⟨⟨_, by decide, by decide, rfl⟩, ⟨_, by decide, by decide, rfl⟩⟩

theorem witness_HeldIdAndOpcodeStayLegal :
    (∃ t u, StateInv Config.standard (withHost heldWrite [.command ⟨0b001#3, []⟩]) ∧
      step (withHost heldWrite [.command ⟨0b001#3, []⟩]) = .next t ∧ t.valid = true ∧ exec .toBytes t = .next u) ∧
    ((-1 : Int) < 0x00 ∧ (0xFE : Int) < 0xFF ∧ (0x84 : Int) ∉ [0x01, 0x02, 0x03, 0x04, 0x05, 0x06, 0x83]) :=
  ⟨⟨_, _, by decide, rfl, rfl, rfl⟩, by decide⟩

/-- The refusal's clause and the others both occur. -/
theorem witness_EveryInstructionEndsInAnOutcome : StateInv Config.standard State.reset ∧ State.reset.valid = false ∧
    StateInv Config.standard heldWrite ∧ heldWrite.valid = true := by decide

theorem witness_EveryRunGoesOn : StateInv Config.standard (withHost heldWrite [.command ⟨0b001#3, []⟩, .reset]) ∧
    WellPresented (withHost heldWrite [.command ⟨0b001#3, []⟩, .reset]) := by
  refine ⟨by decide, fun cmd h => ?_⟩
  simp only [withHost, List.mem_cons, HostEvent.command.injEq, reduceCtorEq, List.not_mem_nil, or_false] at h
  subst h; decide

theorem witness_DecodeOfEncode : WellFormed (.syncWrite (.int 0xFE) (ints [1, 2, 3, 4])) = true ∧
    WellFormed (.build .nonint .nonint [.nonint]) = true := by decide

/-- Both cases of the conclusion: the parameters given, and omitted. -/
theorem witness_DecodedCommandIsCanonical :
    decode ⟨0b000#3, [.val (.int 1), .val (.int 1), .seq []]⟩ = .ok (.ping (.int 1) []) ∧
    decode ⟨0b000#3, [.val (.int 1), .val (.int 1)]⟩ = .ok (.ping (.int 1) []) := by decide

theorem witness_StepRunsDecodedCommand :
    (withHost heldWrite [.command ⟨0b001#3, []⟩]).host = .command ⟨0b001#3, []⟩ :: [] ∧
    decode ⟨0b001#3, []⟩ = .ok .toBytes := by decide

theorem witness_StepRunsTableWord : decodeTableWord 8 0x05 = some (.action (.int 0) []) := by decide

theorem witness_UnassignedCodeIsRefused :
    (withHost heldWrite [.command ⟨0b111#3, [.val .nonint]⟩]).host = .command ⟨0b111#3, [.val .nonint]⟩ :: [] ∧
    (Config.mk 249 false).hasHexstr = false ∧
    (withHost heldWrite [.command ⟨0b110#3, [.seq []]⟩]).host = .command ⟨0b110#3, [.seq []]⟩ :: [] := by decide

theorem witness_IdleBlockHoldsItsState : heldWrite.host = [] ∧
    (withHost heldWrite [.command ⟨0b001#3, [.seq []]⟩]).host = .command ⟨0b001#3, [.seq []]⟩ :: [] ∧
    decode ⟨0b001#3, [.seq []]⟩ = .error .operandShape := by decide

/-- Operands that pass the five checks, at both ends of a row and of the ID's domain. -/
theorem witness_legalOperands :
    (0xFE#8).toNat ≤ 0xFE ∧ (0x00#8).toNat ≤ 0xFE ∧
    (lut Config.standard .writeData).min ≤ [0x1E#8, 0x00#8].length ∧
    (List.replicate 249 0xFF#8).length ≤ (lut Config.standard .writeData).max ∧
    heldWrite.pbuf.wf ∧ State.reset.pbuf.wf := by
  simp only [List.length_replicate]; decide

theorem witness_CommandsTakeEffectInOrder :
    (∃ t, step (withHost heldWrite [.reset]) = .next t) ∧
    (withHost heldWrite [.command ⟨0b000#3, [.val (byteOperand 0xFE#8), .val (.int Opcode.ping.value), .seq []]⟩,
      .command ⟨0b001#3, []⟩]).pbuf.wf ∧
    (lut Config.standard .ping).min ≤ ([] : List Byte).length ∧ ([] : List Byte).length ≤ (lut Config.standard .ping).max :=
  ⟨⟨_, rfl⟩, by decide⟩

/-- 253 parameters, a reordering, and the largest legal packet. -/
theorem witness_ChecksumArithmetic : (List.replicate 253 0xFF#8).length ≤ 253 ∧
    [0xBC#8, 0x02#8].Perm [0x02#8, 0xBC#8] ∧ (0xFE#8).toNat ≤ 0xFE ∧
    (List.replicate 249 0xFF#8).length ≤ Config.standard.maxParams := by
  simp only [List.length_replicate]; decide

theorem witness_TobytesWithoutPacketIsRefused : State.reset.valid = false := rfl
theorem witness_TobytesReturnsHeldFrame : StateInv Config.standard heldWrite ∧ heldWrite.valid = true ∧
    0 < heldWrite.np.toNat := by decide

theorem witness_BuildRejectsIdOutOfRange : (-1 : Int) < 0 ∧ (0xFF : Int) ≤ 0xFF := by decide
theorem witness_BuildRejectsUnlistedInstruction : (0x00 : Int) ≤ 0x00 ∧ (0xFE : Int) ≤ 0xFE ∧
    (0x101 : Int) ∉ [0x01, 0x02, 0x03, 0x04, 0x05, 0x06, 0x83] ∧
    (0x07 : Int) ∉ [0x01, 0x02, 0x03, 0x04, 0x05, 0x06, 0x83] := by decide

/-- One below and one above each bound, PING with one, WRITE_DATA with 249 and 250. -/
theorem witness_BuildRejectsParameterCount :
    (ints [0]).length = 1 ∧ ([1] : List Int).length < (lut Config.standard .readData).min ∧
    (lut Config.standard .readData).max < ([1, 2, 3] : List Int).length ∧
    (List.replicate 249 (0xFF : Int)).length = Config.standard.maxParams ∧
    (∀ v ∈ List.replicate 249 (0xFF : Int), 0x00 ≤ v ∧ v ≤ 0xFF) ∧
    (List.replicate 250 (0x00 : Int)).length = Config.standard.maxParams + 1 := by
  refine ⟨by decide, by decide, by decide, List.length_replicate, fun v hv => ?_, List.length_replicate⟩
  obtain rfl := List.eq_of_mem_replicate hv; decide

theorem witness_BuildRejectsParameterOutOfRange :
    (lut Config.standard .writeData).min ≤ ([0x1E, 0x100] : List Int).length ∧
    ([0x1E, 0x100] : List Int).length ≤ (lut Config.standard .writeData).max ∧
    (∃ v ∈ ([0x1E, 0x100] : List Int), v < 0x00 ∨ 0xFF < v) ∧ (∃ v ∈ ([-1, 0x00] : List Int), v < 0x00 ∨ 0xFF < v) := by
  decide

theorem witness_ParameterlessOpcodesBuildTheirFrames : (0xFE#8).toNat ≤ 0xFE ∧ ([0] : List Int) ≠ [] := by decide
theorem witness_ReadDataBuildsItsFrame : heldWrite.pbuf.wf ∧ (0xFE#8).toNat ≤ 0xFE ∧
    ([1] : List Int).length ≠ 2 ∧ ([1, 2, 3] : List Int).length ≠ 2 := by decide
theorem witness_WriteOpcodesBuildTheirFrames : heldWrite.pbuf.wf ∧ (0xFE#8).toNat ≤ 0xFE ∧
    2 ≤ [0x00#8, 0xFF#8].length ∧ (List.replicate 249 0x00#8).length ≤ Config.standard.maxParams ∧
    ([0] : List Int).length < 2 ∧ Config.standard.maxParams < (List.replicate 250 (0 : Int)).length := by
  simp only [List.length_replicate]; decide
theorem witness_SyncWriteBuildsItsFrame : heldWrite.pbuf.wf ∧ (0x01#8).toNat ≤ 0xFE ∧
    4 ≤ [0x01#8, 0x02#8, 0x03#8, 0x04#8].length ∧ (List.replicate 249 0xFF#8).length ≤ Config.standard.maxParams ∧
    ([0, 0, 0] : List Int).length < 4 ∧ Config.standard.maxParams < (List.replicate 250 (0 : Int)).length := by
  simp only [List.length_replicate]; decide

/-- An error and a refusal. -/
theorem witness_ErrorWritesNoState :
    (∃ t, exec (.ping .nonint []) heldWrite = .next t ∧ ∀ r, t.outcome ≠ some (.success r)) ∧
    (∃ t, exec .toBytes State.reset = .next t ∧ ∀ r, t.outcome ≠ some (.success r)) :=
  ⟨⟨_, rfl, fun r => by simp⟩, ⟨_, rfl, fun r => by simp [State.refuse]⟩⟩

theorem witness_FailedBuildKeepsOlderFrame :
    ∃ t e, isBuild (.ping .nonint []) = true ∧ exec (.ping .nonint []) heldWrite = .next t ∧
      t.outcome = some (.error e) := ⟨_, _, rfl, rfl, rfl⟩

theorem witness_OnlySuccessfulBuildWritesThePacket :
    (∃ t, exec .toBytes heldWrite = .next t ∧ isBuild .toBytes = false) ∧
    (∃ t, exec (.ping (.int 1) []) heldWrite = .next t ∧ ¬ SamePacket heldWrite t) :=
  ⟨⟨_, rfl, rfl⟩, ⟨_, rfl, fun h => absurd h.2.1 (by decide)⟩⟩

/-- A BUILD that stores one index fewer than the packet it replaces, in a state that holds one. -/
theorem witness_BuildFrameOfState : ∃ t, isBuild (.ping (.int 1) []) = true ∧ heldWrite.valid = true ∧
    exec (.ping (.int 1) []) heldWrite = .next t ∧ paramCount (.ping (.int 1) []) ≤ 0 := ⟨_, rfl, rfl, rfl, by decide⟩

theorem witness_OnlyResetDropsAPacket :
    (∃ t, step (withHost heldWrite [.reset]) = .next t ∧ (withHost heldWrite [.reset]).valid = true ∧ t.valid = false) ∧
    (∃ t, step (withHost State.reset [.command ⟨0b000#3, [.val (.int 1), .val (.int 1)]⟩]) = .next t ∧
      t.valid = true) := ⟨⟨_, rfl, rfl, rfl⟩, ⟨_, rfl, rfl⟩⟩

/-- Two states that differ in PBUF above NP only, and two that hold no packet and differ in everything else. -/
theorem witness_UnreadableStateIsNeverObserved :
    (∃ s', StateInv Config.standard (withHost heldWrite [.command ⟨0b001#3, []⟩]) ∧
      StateInv Config.standard (withHost { heldWrite with pbuf := [(0, 0x19#8), (1, 0x01#8), (2, 0x77#8)] }
        [.command ⟨0b001#3, []⟩]) ∧
      SameReadable (withHost heldWrite [.command ⟨0b001#3, []⟩])
        (withHost { heldWrite with pbuf := [(0, 0x19#8), (1, 0x01#8), (2, 0x77#8)] } [.command ⟨0b001#3, []⟩]) ∧
      step (withHost heldWrite [.command ⟨0b001#3, []⟩]) = .next s') ∧
    SameReadable State.reset { heldWrite with valid := false } :=
  ⟨⟨_, by decide, by decide, ⟨rfl, rfl, fun _ => ⟨rfl, rfl, rfl, by decide⟩⟩, rfl⟩, ⟨rfl, rfl, fun h => by cases h⟩⟩

theorem witness_FailedCommandLeavesNoTrace :
    ∃ t, (withHost State.reset [.command ⟨0b001#3, []⟩, .reset]).host = .command ⟨0b001#3, []⟩ :: .reset :: [] ∧
      step (withHost State.reset [.command ⟨0b001#3, []⟩, .reset]) = .next t ∧ ∀ r, t.outcome ≠ some (.success r) :=
  ⟨_, rfl, rfl, fun r => by simp [State.refuse]⟩

/-- Both ends of `Legal`, and the longest frame. -/
theorem witness_ParseAcceptsExactlyTheFrames : Config.Legal ⟨253, true⟩ ∧ Config.Legal ⟨0, true⟩ ∧
    (0xFE#8).toNat ≤ 0xFE ∧ (List.replicate 249 0x00#8).length ≤ Config.standard.maxParams := by
  simp only [List.length_replicate]; decide

theorem witness_ParseRejectsWrongHeader : 4 ≤ [0x01#8, 0x02#8, 0x00#8, 0xFC#8].length ∧
    (0xFE#8 ≠ 0xFF#8 ∨ 0xFF#8 ≠ 0xFF#8) ∧ (0xFF#8 ≠ 0xFF#8 ∨ 0xFE#8 ≠ 0xFF#8) := by decide

/-- V98 (short by one), V100 (LENGTH 1), V106 (260 bytes in all). -/
theorem witness_ParseRejectsInconsistentLength :
    2 ≤ [0x00#8, 0xFC#8].length ∧ (0x03#8).toNat ≠ [0x00#8, 0xFC#8].length ∧ (0x01#8).toNat < 2 ∧
    259 < (List.replicate 256 0x00#8).length + 4 := by
  simp only [List.length_replicate]; decide

theorem witness_ParseRejectsChecksumMismatch : ([] : List Byte).length ≤ Config.standard.maxParams ∧
    (List.replicate 249 0x00#8).length ≤ Config.standard.maxParams ∧ 0xFD#8 ≠ cksum 0x01#8 0x00#8 [] := by
  simp only [List.length_replicate]; decide

/-- V93 (five bytes), V104 and V105 (250 and 253 parameters), V112. -/
theorem witness_ParseRejectsShortLongAndReservedId :
    [0xFF#8, 0xFF#8, 0x01#8, 0x02#8, 0x00#8].length < 6 ∧
    Config.standard.maxParams < (List.replicate 250 0x00#8).length ∧ (List.replicate 253 0x00#8).length ≤ 253 ∧
    (List.replicate 249 0x00#8).length ≤ Config.standard.maxParams := by
  simp only [List.length_replicate]; decide

/-- V84 with its first byte after the header, and with its last byte, changed. -/
theorem witness_ParseDetectsSingleCorruption :
    parseFrame Config.standard [0xFF#8, 0xFF#8, 0xFE#8, 0x02#8, 0x00#8, 0xFF#8] = .ok ⟨0xFE#8, 0x00#8, []⟩ ∧
    2 ≤ 2 ∧ 5 < [0xFF#8, 0xFF#8, 0xFE#8, 0x02#8, 0x00#8, 0xFF#8].length ∧
    [0xFF#8, 0xFF#8, 0xFE#8, 0x02#8, 0x00#8, 0xFF#8][2]? ≠ some 0xFF#8 ∧
    [0xFF#8, 0xFF#8, 0xFE#8, 0x02#8, 0x00#8, 0xFF#8][5]? ≠ some 0x00#8 := by decide

theorem witness_ParseMissesReordering : [0xBC#8, 0x02#8].Perm [0x02#8, 0xBC#8] ∧ (0x01#8).toNat ≤ 0xFE ∧
    [0xBC#8, 0x02#8].length ≤ Config.standard.maxParams := by decide

/-- Each clause of the codecs' statements at the ends of its range. -/
theorem witness_codecRanges : ((0 : Int) ≤ 0 ∧ (0 : Int) ≤ 0xFFFF) ∧ ((0 : Int) ≤ 0xFFFF ∧ (0xFFFF : Int) ≤ 0xFFFF) ∧
    (-1 : Int) < 0 ∧ (0xFFFF : Int) < 0x10000 ∧ (0xFF : Int) < 0x100 ∧ ((0 : Int) ≤ 0xFF ∧ (0xFF : Int) ≤ 0xFF) := by
  decide

theorem witness_HexstrErrors : (∃ v ∈ ([0x00, 0x100] : List Int), v < 0x00 ∨ 0xFF < v) ∧
    (∃ v ∈ ([-1] : List Int), v < 0x00 ∨ 0xFF < v) := by decide

theorem witness_HexstrCharacters :
    ∃ t, exec (.hexstr (.items (ints [0xFF, 0x0A]))) State.reset = .next t ∧
      t.outcome = some (.success (.text ['f', 'f', ',', '0', 'a'])) := ⟨_, rfl, by decide⟩

/-- An instruction that ends in a TypeError, with a `nonint` among its operands, and one that ends in a ValueError. -/
theorem witness_errorsOverAllInstructions :
    (∃ t e, exec (.le16dec (.int 0) .nonint) State.reset = .next t ∧ t.outcome = some (.error e) ∧
      e.cause.kind = .typeError ∧ Operand.nonint ∈ operandsOf (.le16dec (.int 0) .nonint)) ∧
    (∃ t e, exec (.parse []) State.reset = .next t ∧ t.outcome = some (.error e) ∧ e.cause.kind = .valueError) :=
  ⟨⟨_, _, rfl, rfl, rfl, by decide⟩, ⟨_, _, rfl, rfl, rfl⟩⟩

/-- Both ends of `Legal`, and a configuration from 2 on. -/
theorem witness_EveryLegalConfigKeepsInvariant :
    (∃ t, Config.Legal ⟨253, false⟩ ∧ StateInv ⟨253, false⟩ (withHost heldWrite [.command ⟨0b001#3, []⟩]) ∧
      stepWith ⟨253, false⟩ (withHost heldWrite [.command ⟨0b001#3, []⟩]) = .next t) ∧
    (∃ t, Config.Legal ⟨0, true⟩ ∧ StateInv ⟨0, true⟩ (withHost State.reset [.reset]) ∧
      stepWith ⟨0, true⟩ (withHost State.reset [.reset]) = .next t) ∧
    Config.Legal ⟨2, true⟩ ∧ 2 ≤ (Config.mk 2 true).maxParams ∧ StateInv ⟨2, true⟩ heldWrite :=
  ⟨⟨_, by decide, by decide, rfl⟩, ⟨_, by decide, by decide, rfl⟩, by decide⟩

/-- The least and the greatest such configuration; counts at, below and above the row's bounds; a frame too long. -/
theorem witness_MaxParamsIsTheCeilingEverywhere :
    Config.Legal ⟨2, true⟩ ∧ 2 ≤ (Config.mk 2 true).maxParams ∧ Config.Legal ⟨253, true⟩ ∧ heldWrite.pbuf.wf ∧
    (0xFE#8).toNat ≤ 0xFE ∧ (lut ⟨2, true⟩ .writeData).min ≤ [1#8, 2#8].length ∧
    [1#8, 2#8].length ≤ (lut ⟨2, true⟩ .writeData).max ∧ ([1] : List Int).length < (lut ⟨2, true⟩ .writeData).min ∧
    (lut ⟨2, true⟩ .writeData).max < ([1, 2, 3] : List Int).length ∧
    (Config.mk 2 true).maxParams < [1#8, 2#8, 3#8].length ∧ [1#8, 2#8, 3#8].length ≤ 253 := by decide

end Sys2Proof.Tests
end

section
/-! PROOFS. What every instruction and every step keep at any configuration (10_state.md R29; 00_scope.md R5, R8). -/

namespace Sys2Proof.Machine

/-! ## What an instruction can do, and what it leaves to the host -/

/-- If an instruction answers a next state, then only the outcome changed, or a BUILD committed its packet. -/
theorem execWith_next {c : Config} {i : Instr} {s t : State} (h : execWith c i s = .next t) :
    (∃ o, t = s.deliver o) ∨
    (∃ id op ps r m, buildChecks c id op ps = .ok r ∧ storeParams c s.pbuf 0 r.params = some m ∧
      t = (s.hold r m).deliver (.success .built)) := by
  rcases execWith_cases c i s with ⟨id, op, ps, hx⟩ | hx | ⟨o, hx⟩ <;> rw [hx] at h
  · rcases buildWith_next h with ⟨e, -, rfl⟩ | ⟨r, m, hr, hm, rfl⟩
    · exact .inl ⟨_, rfl⟩
    · exact .inr ⟨id, op, ps, r, m, hr, hm, rfl⟩
  · rcases toBytesWith_next h with ⟨-, rfl⟩ | ⟨-, rfl⟩ <;> exact .inl ⟨_, rfl⟩
  · exact .inl ⟨o, (Host.Outcome.next.inj h).symm⟩

/-- No instruction touches the events the host is still to issue. -/
theorem execWith_host {c : Config} {i : Instr} {s t : State} (h : execWith c i s = .next t) : t.host = s.host := by
  rcases execWith_next h with ⟨o, rfl⟩ | ⟨_, _, _, r, m, -, -, rfl⟩ <;> rfl

/-! ## The packet invariant (R29) -/

/-- The invariant does not speak of the outcome port. -/
theorem stateInv_deliver {c : Config} {s : State} {o : CmdOutcome} :
    StateInv c (s.deliver o) ↔ StateInv c s := Iff.rfl

/-- The invariant does not speak of the host's events. -/
theorem stateInv_setHost {c : Config} {s : State} {evs : List HostEvent} :
    StateInv c { s with host := evs } ↔ StateInv c s := Iff.rfl

/-- After the reset event PBUF is empty and no packet is held, so that the invariant asks nothing more. -/
theorem stateInv_resetEvent (c : Config) (s : State) : StateInv c (resetEvent s) :=
  ⟨⟨.nil, by simp⟩, by simp, by simp⟩

/-- NP is a byte and loses nothing, since a legal `MAX_PARAMS` fits in one (log 13). -/
theorem hold_np_toNat {c : Config} {s : State} {r : PacketFields} {m : Memory} (hc : c.Legal)
    (hn : r.params.length ≤ c.maxParams) : (s.hold r m).np.toNat = r.params.length := by
  have hc' : c.maxParams ≤ 253 := hc
  rw [hold_np, BitVec.toNat_ofNat]
  exact Nat.mod_eq_of_lt (by omega)

/-- A stored parameter list fits PBUF. -/
theorem length_le_of_storeParams {c : Config} {m m' : Memory} {vs : List Byte}
    (h : storeParams c m 0 vs = some m') : vs.length ≤ c.maxParams := by
  rcases storeParams_isSome.1 (Option.isSome_of_eq_some h) with rfl | hn
  · exact Nat.zero_le _
  · omega

/-- The commit of a BUILD whose five checks passed keeps the invariant, at every legal `MAX_PARAMS`. -/
theorem stateInv_hold {c : Config} {id op : Operand} {ps : List Operand} {s : State} {r : PacketFields} {m : Memory}
    (hc : c.Legal) (hs : StateInv c s) (hr : buildChecks c id op ps = .ok r)
    (hm : storeParams c s.pbuf 0 r.params = some m) : StateInv c (s.hold r m) := by
  obtain ⟨hwf, hin, -⟩ := hs
  obtain ⟨hid, hmin, hmax, -⟩ := buildChecks_ok hr
  have hcap := length_le_of_storeParams hm
  refine ⟨storeParams_wf hwf hm, storeParams_within hin hm, fun _ => ⟨hid, ⟨r.op, opcode_mem_all _, rfl, ?_, ?_⟩, ?_⟩⟩ <;>
    rwa [hold_np_toNat hc hcap]

/-- Every instruction keeps the invariant, at every legal `MAX_PARAMS`. -/
theorem execWith_keeps_stateInv {c : Config} (hc : c.Legal) {i : Instr} {s t : State} (hs : StateInv c s)
    (h : execWith c i s = .next t) : StateInv c t := by
  rcases execWith_next h with ⟨o, rfl⟩ | ⟨_, _, _, r, m, hr, hm, rfl⟩
  · exact stateInv_deliver.2 hs
  · exact stateInv_deliver.2 (stateInv_hold hc hs hr hm)

/-- A command that is no instruction goes on only by the refusal `UnknownCommand`. -/
theorem undecoded_next {e : DecodeError} {s t : State} (h : undecoded e s = .next t) :
    t = s.deliver (.refusal .unknownCommand) := by
  cases e with
  | unknownCommand => exact (Host.Outcome.next.inj h).symm
  | operandShape => cases h

/-- Every step keeps the invariant, at every legal `MAX_PARAMS`. -/
theorem stepWith_keeps_stateInv {c : Config} (hc : c.Legal) {s t : State} (hs : StateInv c s)
    (h : stepWith c s = .next t) : StateInv c t := by
  rcases carryOut_cases (decodeWith c) (execWith c) s with
    ⟨-, hx⟩ | ⟨rest, -, hx⟩ | ⟨cmd, rest, e, -, -, hx⟩ | ⟨cmd, rest, i, -, -, hx⟩ <;> rw [stepWith, hx] at h
  · exact Host.Outcome.next.inj h ▸ hs
  · exact Host.Outcome.next.inj h ▸ stateInv_resetEvent c _
  · rw [undecoded_next h]
    exact stateInv_deliver.2 (stateInv_setHost.2 hs)
  · exact execWith_keeps_stateInv hc (stateInv_setHost.2 hs) h

/-! ## No instruction stops -/

/-- TOBYTES never stops in a state that meets the invariant: NP is within PBUF while a packet is held. -/
theorem toBytesWith_completes {c : Config} {s : State} (hs : StateInv c s) : ∃ t, toBytesWith c s = .next t := by
  obtain ⟨-, -, hheld⟩ := hs
  cases hv : s.valid with
  | false => exact ⟨_, toBytesWith_none hv⟩
  | true =>
    obtain ⟨-, -, hnp⟩ := hheld hv
    exact ⟨_, toBytesWith_held hv hnp⟩

/-- No instruction stops at a configuration whose PBUF holds READ_DATA's two parameters (log 7). -/
theorem execWith_completes {c : Config} (hc : 2 ≤ c.maxParams) (i : Instr) {s : State} (hs : StateInv c s) :
    ∃ t, execWith c i s = .next t := by
  rcases execWith_cases c i s with ⟨id, op, ps, hx⟩ | hx | ⟨o, hx⟩ <;> rw [hx]
  · exact buildWith_completes hc id op ps s
  · exact toBytesWith_completes hs
  · exact ⟨_, rfl⟩

/-- Settles O59: the step's inversion gives the invariant, and the instruction's cases give completion. -/
theorem everyLegalConfigKeepsInvariant : Obligations.EveryLegalConfigKeepsInvariant := fun _ hc =>
  ⟨fun _ _ hs h => stepWith_keeps_stateInv hc hs h, fun h2 i _ hs => execWith_completes h2 i hs⟩

/-! ## This hardware is the standard configuration (log 6) -/

theorem exec_eq_execWith (i : Instr) (s : State) : exec i s = execWith Config.standard i s := by
  cases i <;> rfl

theorem step_eq_stepWith (s : State) : step s = stepWith Config.standard s := by
  have hexec : exec = execWith Config.standard := funext fun i => funext (exec_eq_execWith i)
  rw [step, hexec]
  rfl

/-- The two machines share their state type by definition and differ in the name of the step alone. -/
theorem core_run_eq_coreWith_run (k : Nat) (s : State) :
    Sys2Proof.core.run k s = (coreWith Config.standard).run k s := by
  have hstep : step = stepWith Config.standard := funext step_eq_stepWith
  unfold Sys2Proof.core coreWith
  rw [hstep]

/-- Settles O58, by the arms of `exec`, and the step and the run built from them. -/
theorem standardConfigurationIsThisHardware : Obligations.StandardConfigurationIsThisHardware :=
  ⟨exec_eq_execWith, step_eq_stepWith, core_run_eq_coreWith_run⟩

/-- Settles O12, by the step's equation for a command that decodes. -/
theorem stepRunsDecodedCommand : Obligations.StepRunsDecodedCommand := fun _ _ _ _ hhost hdec =>
  step_decoded hhost hdec

/-! ## Runs -/

/-- A step takes the next event off the host's list. -/
theorem step_host {s t : State} (h : step s = .next t) : t.host = s.host.tail := by
  rcases step_cases s with ⟨hh, hx⟩ | ⟨rest, hh, hx⟩ | ⟨cmd, rest, e, hh, -, hx⟩ | ⟨cmd, rest, i, hh, -, hx⟩ <;>
    rw [hx] at h <;> rw [hh]
  · rw [← Host.Outcome.next.inj h, hh, List.tail_nil]
  · rw [← Host.Outcome.next.inj h, resetEvent_host, List.tail_cons]
  · rw [undecoded_next h, deliver_host, List.tail_cons]
  · rw [exec_eq_execWith] at h
    rw [execWith_host h, List.tail_cons]

/-- What remains of a well-presented list of events is well presented. -/
theorem step_keeps_wellPresented {s t : State} (hw : WellPresented s) (h : step s = .next t) : WellPresented t := by
  intro cmd hcmd
  rw [step_host h] at hcmd
  exact hw cmd (List.mem_of_mem_tail hcmd)

/-- No step stops from a good state whose host presents only what the interface can carry: an idle block and a reset
event go on, an unassigned code is refused by a next state (log 3), and no instruction stops. -/
theorem step_completes {s : State} (hs : StateInv Config.standard s) (hw : WellPresented s) : ∃ t, step s = .next t := by
  rcases step_cases s with ⟨-, hx⟩ | ⟨rest, -, hx⟩ | ⟨cmd, rest, e, hh, hd, hx⟩ | ⟨cmd, rest, i, -, -, hx⟩ <;> rw [hx]
  · exact ⟨_, rfl⟩
  · exact ⟨_, rfl⟩
  · cases e with
    | unknownCommand => exact ⟨_, rfl⟩
    | operandShape => exact absurd hd (hw cmd (by simp [hh]))
  · rw [exec_eq_execWith]
    exact execWith_completes (by decide) i (stateInv_setHost.2 hs)

/-- If from every state of `P` the step goes on to a state of `P`, then so does a run of any length. -/
theorem run_goes_on {M : Host.Core} {P : M.State → Prop} (hP : ∀ s, P s → ∃ t, M.step s = .next t ∧ P t) (k : Nat)
    (s : M.State) (hs : P s) : ∃ t, M.run k s = .next t ∧ P t := by
  induction k generalizing s with
  | zero => exact ⟨s, rfl, hs⟩
  | succ k ih =>
    obtain ⟨t, hstep, ht⟩ := hP s hs
    obtain ⟨u, hrun, hu⟩ := ih t ht
    exact ⟨u, by simp only [Host.Core.run, hstep, hrun], hu⟩

/-- The states from which this hardware's runs go on: good, with a well-presented host. -/
def GoesOn (s : State) : Prop := StateInv Config.standard s ∧ WellPresented s

theorem step_keeps_goesOn (s : State) (h : GoesOn s) : ∃ t, step s = .next t ∧ GoesOn t := by
  obtain ⟨hs, hw⟩ := h
  obtain ⟨t, ht⟩ := step_completes hs hw
  have hstd : Config.standard.Legal := by decide
  exact ⟨t, ht, stepWith_keeps_stateInv hstd hs (step_eq_stepWith s ▸ ht), step_keeps_wellPresented hw ht⟩

/-- Settles O7, by induction on the length of the run: every step goes on and keeps `GoesOn`. -/
theorem everyRunGoesOn : Obligations.EveryRunGoesOn := fun k s hs hw =>
  run_goes_on (M := Sys2Proof.core) step_keeps_goesOn k s ⟨hs, hw⟩

end Sys2Proof.Machine
end

section
/-! PROOFS. `MAX_PARAMS` as the ceiling of BUILD, TOBYTES and PARSE (00_scope.md R5; 10_state.md R30). -/

namespace Sys2Proof.Machine

/-! ## BUILD and TOBYTES of byte operands -/

/-- BUILD's checks pass on a legal ID, an opcode and bytes whose count is within the opcode's row. -/
theorem buildChecks_bytes {c : Config} {id : Byte} {o : Opcode} {ps : List Byte} (hid : id.toNat ≤ 0xFE)
    (hmin : (lut c o).min ≤ ps.length) (hmax : ps.length ≤ (lut c o).max) :
    buildChecks c (byteOperand id) (.int o.value) (ps.map byteOperand) = .ok ⟨id, o, ps⟩ := by
  have hints : ps.map byteOperand = (ps.map fun b => (b.toNat : Int)).map .int := by
    rw [List.map_map]
    rfl
  have hbyte : ∀ v ∈ ps.map fun b => (b.toNat : Int), 0 ≤ v ∧ v ≤ 255 := by
    simp only [List.forall_mem_map]
    intro b _
    have := b.isLt
    omega
  rw [hints, byteOperand, buildChecks_ints, checkValues_ok]
  exact ⟨by omega, rfl, by simpa using ⟨hmin, hmax⟩, hbyte, toByte_natCast id, by simp [Function.comp_def]⟩

/-- BUILD's checks answer `V_COUNT` on a legal ID and an opcode when the count is outside the opcode's row. -/
theorem buildChecks_count {c : Config} {id : Byte} {o : Opcode} {vs : List Int} (hid : id.toNat ≤ 0xFE)
    (hn : vs.length < (lut c o).min ∨ (lut c o).max < vs.length) :
    buildChecks c (byteOperand id) (.int o.value) (vs.map .int) =
      .error ⟨.vCount, ⟨.parameters, .int vs.length, .range (lut c o).min (lut c o).max⟩⟩ := by
  rw [byteOperand, buildChecks_ints, checkValues_error]
  exact .inr ⟨by omega, .inr ⟨o, rfl, .inl ⟨by omega, rfl⟩⟩⟩

/-- The registers of a committed packet describe the parameters it was built with (R26). -/
theorem heldParams_hold {c : Config} {s : State} {r : PacketFields} {m : Memory} (hc : c.Legal) (hwf : s.pbuf.wf)
    (hm : storeParams c s.pbuf 0 r.params = some m) : heldParams (s.hold r m) = r.params := by
  have hread := storeParams_read_inside hwf hm
  simp only [Nat.zero_add] at hread
  rw [heldParams, hold_np_toNat hc (length_le_of_storeParams hm)]
  exact hread

@[simp] theorem heldParams_deliver (s : State) (o : CmdOutcome) : heldParams (s.deliver o) = heldParams s := rfl

/-! ## PARSE at the ceiling -/

/-- PARSE accepts the frame of a legal ID with no more than `MAX_PARAMS` parameters (D15, D16). -/
theorem parseFrame_frameOf {c : Config} {id : Byte} {ps : List Byte} (hc : c.Legal) (hid : id.toNat ≤ 0xFE) (ib : Byte)
    (hn : ps.length ≤ c.maxParams) : parseFrame c (frameOf id ib ps) = .ok ⟨id, ib, ps⟩ := by
  obtain ⟨h0, h1, h2, h3, h4, hps, hck⟩ := frameOf_fields id ib ps
  have hc' : c.maxParams ≤ 253 := hc
  have hlen : (BitVec.ofNat 8 (lengthOf ps)).toNat = ps.length + 2 := by
    rw [BitVec.toNat_ofNat, lengthOf, Config.lengthBias]
    omega
  rw [parseFrame_ok, frameOf_length, h0, h1, h2, h3, h4, hps, hlen]
  exact ⟨by omega, rfl, rfl, by omega, by omega, hck, hid, rfl⟩

/-- Check 4 (R174): a frame that passes checks 1 to 3 and has more than `MAX_PARAMS` parameters is `V_RX_COUNT`. -/
theorem parseFrame_rxCount {c : Config} {B : List Byte} (hlen : 6 ≤ B.length) (h0 : byteAt B 0 = 0xFF#8)
    (h1 : byteAt B 1 = 0xFF#8) (h3 : (byteAt B 3).toNat = B.length - 4) (hn : c.maxParams < B.length - 6) :
    parseFrame c B =
      .error ⟨.vRxCount, ⟨.parameters, .int (B.length - 6 : Nat), .range 0 c.maxParams⟩⟩ := by
  rw [parseFrame]
  simp only [bind_error, require_error, require_ok]
  refine .inr ⟨(), decide_eq_true hlen, .inr ⟨(), by simp [h0, h1, Config.headerByte], ?_⟩⟩
  exact .inr ⟨(), beq_iff_eq.2 h3, .inl ⟨decide_eq_false (Nat.not_le.2 hn), rfl⟩⟩

/-- A frame's LENGTH is its byte count minus 4; with more than `MAX_PARAMS` parameters it is `V_RX_COUNT`, whatever its
checksum. -/
theorem parseFrame_tooManyParams {c : Config} (id eb ck : Byte) {ps : List Byte} (hn : c.maxParams < ps.length)
    (hlen : ps.length ≤ 253) :
    parseFrame c ([0xFF#8, 0xFF#8, id, BitVec.ofNat 8 (ps.length + 2), eb] ++ ps ++ [ck]) =
      .error ⟨.vRxCount, ⟨.parameters, .int ps.length, .range 0 c.maxParams⟩⟩ := by
  have hsize : ([0xFF#8, 0xFF#8, id, BitVec.ofNat 8 (ps.length + 2), eb] ++ ps ++ [ck]).length = ps.length + 6 := by
    simp
  have hlength : (BitVec.ofNat 8 (ps.length + 2)).toNat = ps.length + 2 := by
    rw [BitVec.toNat_ofNat]
    omega
  rw [parseFrame_rxCount (by omega) rfl rfl (by rw [hsize]; exact hlength) (by omega), hsize, Nat.add_sub_cancel]

/-! ## The ceiling -/

/-- A count within the row builds the packet, TOBYTES answers its frame, and PARSE gives the packet back. -/
theorem build_toBytes_parse_withinCount {c : Config} {s : State} {id : Byte} {o : Opcode} {ps : List Byte}
    (hc : c.Legal) (h2 : 2 ≤ c.maxParams) (hwf : s.pbuf.wf) (hid : id.toNat ≤ 0xFE)
    (hmin : (lut c o).min ≤ ps.length) (hmax : ps.length ≤ (lut c o).max) : ∃ t u : State,
      execWith c (.build (byteOperand id) (.int o.value) (ps.map byteOperand)) s = .next t ∧ heldParams t = ps ∧
      t.outcome = some (.success .built) ∧
      execWith c .toBytes t = .next u ∧ u.outcome = some (.success (.frame (frameOf id o.byte ps))) ∧
      execWith c (.parse (frameOf id o.byte ps)) u =
        .next { u with outcome := some (.success (.parsed ⟨id, o.byte, ps⟩)) } := by
  obtain ⟨m, hm, hbuild⟩ := buildWith_commits h2 (buildChecks_bytes hid hmin hmax) s
  have hcap : ps.length ≤ c.maxParams := length_le_of_storeParams hm
  have hheld : heldParams (s.hold ⟨id, o, ps⟩ m) = ps := heldParams_hold hc hwf hm
  have hnp : (s.hold ⟨id, o, ps⟩ m).np.toNat ≤ c.maxParams := (hold_np_toNat hc hcap).trans_le hcap
  have hbytes := toBytesWith_held (c := c) (s := (s.hold ⟨id, o, ps⟩ m).deliver (.success .built)) rfl hnp
  rw [heldParams_deliver, hheld] at hbytes
  refine ⟨_, _, hbuild, hheld, rfl, hbytes, rfl, ?_⟩
  rw [execWith, parseWith, parseFrame_frameOf hc hid o.byte hcap]
  rfl

/-- Settles O60: the round trip within the row, and the checks that answer outside it. -/
theorem maxParamsIsTheCeilingEverywhere : Obligations.MaxParamsIsTheCeilingEverywhere := by
  intro c s id o hc h2 hwf hid
  refine ⟨fun ps hmin hmax => build_toBytes_parse_withinCount hc h2 hwf hid hmin hmax, fun vs hn => ?_,
    fun eb ck ps hn hlen => ?_⟩
  · exact buildWith_error (buildChecks_count hid hn) s
  · rw [execWith, parseWith, parseFrame_tooManyParams id eb ck hn hlen]
    rfl

end Sys2Proof.Machine
end

section
/-! PROOFS. The packet registers over instructions and steps: who writes them, who reads them, and what a held packet
keeps (10_state.md R21 to R37). -/

namespace Sys2Proof.Machine

/-! ## What an instruction does, said for every state at once -/

@[simp] theorem deliver_deliver (s : State) (o o' : CmdOutcome) : (s.deliver o).deliver o' = s.deliver o' := rfl

/-- What a stateless command delivers depends on its operands alone. -/
theorem finish_uniform (x : Except ErrorRecord Result) : ∃ o, ∀ s, finish s x = .next (s.deliver o) := by
  cases x with
  | ok v => exact ⟨.success v, fun _ => rfl⟩
  | error e => exact ⟨.error e, fun _ => rfl⟩

/-- TOBYTES alone reads the state: every other instruction that is no BUILD delivers one outcome, the same from every
state. -/
theorem exec_not_build_uniform {i : Instr} (h : isBuild i = false) :
    i = .toBytes ∨ ∃ o, ∀ s, exec i s = .next (s.deliver o) := by
  cases i with
  | toBytes => exact .inl rfl
  | cksum id ib ps => exact .inr (finish_uniform (.ok (.byte (cksum id ib ps))))
  | parse B => exact .inr (finish_uniform ((parseFrame Config.standard B).map .parsed))
  | le16enc v => exact .inr (finish_uniform (le16encode v))
  | le16dec low high => exact .inr (finish_uniform (le16decode low high))
  | hexstr x => exact .inr (finish_uniform (hexText x))
  | ping | readData | writeData | regWrite | action | reset | syncWrite | build => cases h

/-- Everything an instruction can do, the spelling of BUILD chosen before the state: BUILD, TOBYTES, or an outcome that is
the same from every state. -/
theorem exec_uniform (i : Instr) :
    (isBuild i = true ∧ ∃ id op ps, ∀ s, exec i s = buildWith Config.standard id op ps s) ∨
    i = .toBytes ∨ ∃ o, ∀ s, exec i s = .next (s.deliver o) := by
  cases hb : isBuild i with
  | true =>
    obtain ⟨id, op, ps, -, hx, -⟩ := exec_isBuild hb
    exact .inl ⟨rfl, id, op, ps, hx⟩
  | false => exact .inr (exec_not_build_uniform hb)

/-! ## Only a BUILD that succeeds writes the packet (R28) -/

/-- If an instruction answers a next state, then only the outcome changed, or the instruction is a BUILD that committed
its packet. -/
theorem exec_next {i : Instr} {s t : State} (h : exec i s = .next t) :
    (∃ o, t = s.deliver o) ∨ (isBuild i = true ∧ ∃ r m, t = (s.hold r m).deliver (.success .built)) := by
  cases hb : isBuild i with
  | false => exact .inl (exec_not_build hb h)
  | true =>
    obtain ⟨id, op, ps, -, hx, -⟩ := exec_isBuild hb
    rw [hx] at h
    rcases buildWith_next h with ⟨e, -, rfl⟩ | ⟨r, m, -, -, rfl⟩
    · exact .inl ⟨_, rfl⟩
    · exact .inr ⟨rfl, r, m, rfl⟩

/-- Delivering an outcome is no write to the packet. -/
theorem samePacket_deliver (s : State) (o : CmdOutcome) : SamePacket s (s.deliver o) := ⟨rfl, rfl, rfl, rfl, rfl⟩

/-- Settles O37: an instruction that is no BUILD changes the outcome alone, and so does a BUILD that fails. -/
theorem onlySuccessfulBuildWritesThePacket : Obligations.OnlySuccessfulBuildWritesThePacket := by
  intro i s t h
  refine ⟨fun hb => ?_, fun hne => ?_⟩
  · obtain ⟨o, rfl⟩ := exec_not_build hb h
    exact ⟨samePacket_deliver s o, rfl, fun _ => rfl⟩
  · rcases exec_next h with ⟨o, rfl⟩ | ⟨hb, r, m, rfl⟩
    · exact absurd (samePacket_deliver s o) hne
    · exact ⟨hb, rfl⟩

/-! ## What a step does to the packet (R21, R37) -/

/-- If a step answers a next state, then the block was idle, or it was reset, or its command changed the outcome alone, or
its command is a BUILD that committed its packet. -/
theorem step_next {s t : State} (h : step s = .next t) :
    (s.host = [] ∧ t = s) ∨
    (∃ rest, s.host = .reset :: rest ∧ t = resetEvent { s with host := rest }) ∨
    (∃ cmd rest o, s.host = .command cmd :: rest ∧ t = State.deliver { s with host := rest } o) ∨
    (∃ cmd rest i r m, s.host = .command cmd :: rest ∧ decode cmd = .ok i ∧ isBuild i = true ∧
      t = (State.hold { s with host := rest } r m).deliver (.success .built)) := by
  rcases step_cases s with ⟨hh, hx⟩ | ⟨rest, hh, hx⟩ | ⟨cmd, rest, e, hh, -, hx⟩ | ⟨cmd, rest, i, hh, hd, hx⟩ <;>
    rw [hx] at h
  · exact .inl ⟨hh, (Host.Outcome.next.inj h).symm⟩
  · exact .inr (.inl ⟨rest, hh, (Host.Outcome.next.inj h).symm⟩)
  · exact .inr (.inr (.inl ⟨cmd, rest, _, hh, undecoded_next h⟩))
  · rcases exec_next h with ⟨o, rfl⟩ | ⟨hb, r, m, rfl⟩
    · exact .inr (.inr (.inl ⟨cmd, rest, o, hh, rfl⟩))
    · exact .inr (.inr (.inr ⟨cmd, rest, i, r, m, hh, hd, hb, rfl⟩))

/-- Settles O39: an idle step and a delivered outcome leave VALID alone, the reset event clears it, a commit sets it. -/
theorem onlyResetDropsAPacket : Obligations.OnlyResetDropsAPacket := by
  intro s t h
  rcases step_next h with ⟨-, rfl⟩ | ⟨rest, hh, rfl⟩ | ⟨cmd, rest, o, -, rfl⟩ | ⟨cmd, rest, i, r, m, hh, hd, hb, rfl⟩
  · exact ⟨fun hv hv' => by simp [hv] at hv', fun hv hv' => by simp [hv] at hv'⟩
  · exact ⟨fun _ _ => ⟨rest, hh⟩, fun _ hv' => by simp at hv'⟩
  · exact ⟨fun hv hv' => by simp [hv] at hv', fun hv hv' => by simp [hv] at hv'⟩
  · exact ⟨fun _ hv' => by simp at hv', fun _ _ => ⟨cmd, rest, i, hh, hd, hb, rfl⟩⟩

/-- A reset state struck by a second reset event only consumes the event. -/
theorem resetEvent_setHost_resetEvent (s : State) (evs : List HostEvent) :
    resetEvent { resetEvent s with host := evs } = { resetEvent s with host := evs } := rfl

/-- Settles O1, by the step's equation for the reset event and TOBYTES' refusal without a packet. -/
theorem resetEventHoldsNoPacket : Obligations.ResetEventHoldsNoPacket := by
  refine ⟨rfl, fun s rest hh => ⟨_, step_reset hh, rfl, rfl, rfl, ?_, fun rest' hrest => ?_⟩⟩
  · exact toBytesWith_none (c := Config.standard) (resetEvent_valid _)
  · rw [step_reset (rest := rest') hrest, resetEvent_setHost_resetEvent]

/-! ## The packet invariant (R22, R23, R29) -/

theorem standard_legal : Config.standard.Legal := by decide

/-- Every step of this hardware keeps the invariant. -/
theorem step_keeps_stateInv {s t : State} (hs : StateInv Config.standard s) (h : step s = .next t) :
    StateInv Config.standard t :=
  stepWith_keeps_stateInv standard_legal hs (step_eq_stepWith s ▸ h)

/-- Settles O3: this hardware is the standard configuration, whose `MAX_PARAMS` is legal. -/
theorem stepKeepsPacketInvariant : Obligations.StepKeepsPacketInvariant := fun _ _ => step_keeps_stateInv

/-- Settles O4: BUILD is the instruction `build`, and every instruction keeps the invariant. -/
theorem buildKeepsInvariantAtEveryLegalConfig : Obligations.BuildKeepsInvariantAtEveryLegalConfig :=
  fun _ id op ps _ _ hc hs h => execWith_keeps_stateInv (i := .build id op ps) hc hs h

/-- Settles O2: the reset state is one that the reset event leaves. -/
theorem invariantHoldsAtReset : Obligations.InvariantHoldsAtReset := stateInv_resetEvent Config.standard State.reset

/-- The INSTRUCTION bytes of the closed set (R80). -/
theorem opcode_byte_mem (o : Opcode) : o.byte ∈ [0x01#8, 0x02#8, 0x03#8, 0x04#8, 0x05#8, 0x06#8, 0x83#8] := by
  cases o <;> decide

/-- The closed set's values as integers (R80, R137). -/
theorem opcode_value_mem (o : Opcode) : o.value ∈ [0x01, 0x02, 0x03, 0x04, 0x05, 0x06, 0x83] := by
  cases o <;> decide

/-- A packet that meets R29 has a legal ID and one of the seven opcodes (R22, R23). -/
theorem heldPacketLegal_fields {c : Config} {s : State} (h : HeldPacketLegal c s) :
    s.id.toNat ≤ 0xFE ∧ s.id ≠ 0xFF#8 ∧ s.instr ∈ [0x01#8, 0x02#8, 0x03#8, 0x04#8, 0x05#8, 0x06#8, 0x83#8] := by
  obtain ⟨hid, ⟨o, -, hinstr, -⟩, -⟩ := h
  refine ⟨hid, fun hff => ?_, hinstr ▸ opcode_byte_mem o⟩
  rw [hff] at hid
  exact absurd hid (by decide)

/-- TOBYTES ends in a frame or in a refusal, never in an error (R103). -/
theorem toBytes_outcome_ne_error {s t : State} (h : exec .toBytes s = .next t) (e : ErrorRecord) :
    t.outcome ≠ some (.error e) := by
  rcases toBytesWith_next (c := Config.standard) h with ⟨-, rfl⟩ | ⟨-, rfl⟩ <;> simp

/-- BUILD's checks fail on an ID or an instruction value outside its domain, whatever the parameters: operands that pass
are a legal ID and an opcode's value. -/
theorem buildChecks_rejects (c : Config) {i v : Int} (ps : List Operand)
    (h : i < 0x00 ∨ 0xFE < i ∨ v ∉ [0x01, 0x02, 0x03, 0x04, 0x05, 0x06, 0x83]) :
    ∃ e, buildChecks c (.int i) (.int v) ps = .error e := by
  cases hc : buildChecks c (.int i) (.int v) ps with
  | error e => exact ⟨e, rfl⟩
  | ok r =>
    obtain ⟨hid, -, -, -, hi, hv⟩ := buildChecks_ok hc
    have hi : i = r.id.toNat := Operand.int.inj hi
    have hv : v = r.op.value := Operand.int.inj hv
    rcases h with h | h | h
    · omega
    · omega
    · exact absurd (hv ▸ opcode_value_mem r.op) h

/-- Settles O5: the fields by R29's invariant, which the step keeps, and the rejections by what BUILD's checks accept. -/
theorem heldIdAndOpcodeStayLegal : Obligations.HeldIdAndOpcodeStayLegal := by
  refine ⟨fun s t hs h => ⟨fun hv => ?_, fun u e hu => toBytes_outcome_ne_error hu e⟩, fun s i v ps hbad => ?_⟩
  · obtain ⟨-, -, hheld⟩ := step_keeps_stateInv hs h
    exact heldPacketLegal_fields (hheld hv)
  · obtain ⟨e, he⟩ := buildChecks_rejects Config.standard ps hbad
    exact ⟨e, buildWith_error he s⟩

/-! ## The outcome port is never read (R32, R197) -/

theorem toBytesWith_deliver (c : Config) (s : State) (o : CmdOutcome) :
    toBytesWith c (s.deliver o) = toBytesWith c s := rfl

theorem buildWith_deliver (c : Config) (id op : Operand) (ps : List Operand) (s : State) (o : CmdOutcome) :
    buildWith c id op ps (s.deliver o) = buildWith c id op ps s := rfl

/-- No instruction reads the outcome delivered before it, and each replaces it. -/
theorem exec_deliver (i : Instr) (s : State) (o : CmdOutcome) : exec i (s.deliver o) = exec i s := by
  rcases exec_uniform i with ⟨-, id, op, ps, hx⟩ | rfl | ⟨o', hx⟩
  · rw [hx, hx, buildWith_deliver]
  · exact toBytesWith_deliver Config.standard s o
  · rw [hx, hx, deliver_deliver]

/-- A step that has an event to carry out does not depend on the outcome delivered before it. -/
theorem step_deliver {s : State} (h : s.host ≠ []) (o : CmdOutcome) : step (s.deliver o) = step s := by
  rcases step_cases s with ⟨hh, -⟩ | ⟨rest, hh, hx⟩ | ⟨cmd, rest, e, hh, hd, hx⟩ | ⟨cmd, rest, i, hh, hd, hx⟩
  · exact absurd hh h
  · rw [hx, step_reset (s := s.deliver o) hh]
    rfl
  · rw [hx, step_undecoded (s := s.deliver o) hh hd]
    cases e <;> rfl
  · rw [hx, step_decoded (s := s.deliver o) hh hd]
    exact exec_deliver i { s with host := rest } o

/-- Settles O41: a command that does not end in success changes the outcome alone, which the next event does not read. -/
theorem failedCommandLeavesNoTrace : Obligations.FailedCommandLeavesNoTrace := by
  intro s t cmd ev rest hs h hfail
  rcases step_next h with ⟨hh, -⟩ | ⟨rest', hh, -⟩ | ⟨cmd', rest', o, hh, rfl⟩ | ⟨cmd', rest', i, r, m, -, -, -, rfl⟩
  · simp [hs] at hh
  · simp [hs] at hh
  · obtain ⟨-, rfl⟩ := List.cons.inj (hs.symm.trans hh)
    exact step_deliver (s := { s with host := ev :: rest }) (List.cons_ne_nil ev rest) o
  · exact absurd rfl (hfail .built)

/-! ## What no command may read is never observed (R21, R24, R34) -/

/-- What a command may read does not include the outcome port. -/
theorem sameReadable_deliver {s t : State} {o o' : CmdOutcome} :
    SameReadable (s.deliver o) (t.deliver o') ↔ SameReadable s t := Iff.rfl

/-- Two states that agree on what a command may read agree on it once the same event is taken from both. -/
theorem sameReadable_setHost {s t : State} (h : SameReadable s t) (evs : List HostEvent) :
    SameReadable { s with host := evs } { t with host := evs } := by
  obtain ⟨hvalid, -, hheld⟩ := h
  exact ⟨hvalid, rfl, hheld⟩

/-- After the reset event nothing but VALID and the host's events may be read. -/
theorem sameReadable_resetEvent {s t : State} (h : s.host = t.host) : SameReadable (resetEvent s) (resetEvent t) :=
  ⟨rfl, h, fun hv => by simp at hv⟩

/-- The same packet committed to two buffers is read back alike, whatever they held before (R26, R55). -/
theorem sameReadable_hold {c : Config} (hc : c.Legal) {s t : State} {r : PacketFields} {m m' : Memory}
    (hs : s.pbuf.wf) (ht : t.pbuf.wf) (hhost : s.host = t.host) (hm : storeParams c s.pbuf 0 r.params = some m)
    (hm' : storeParams c t.pbuf 0 r.params = some m') : SameReadable (s.hold r m) (t.hold r m') :=
  ⟨rfl, hhost, fun _ => ⟨rfl, rfl, rfl, (heldParams_hold hc hs hm).trans (heldParams_hold hc ht hm').symm⟩⟩

/-- The answer goes on to a state that cannot be told from `s'`: it delivers the same outcome, and it agrees with `s'` on
what a command may read. -/
def AnswersAlike (s' : State) (answer : Answer) : Prop :=
  ∃ t', answer = .next t' ∧ SameReadable s' t' ∧ s'.outcome = t'.outcome

/-- One outcome delivered in two states that agree. -/
theorem answersAlike_deliver {s t : State} (h : SameReadable s t) (o : CmdOutcome) :
    AnswersAlike (s.deliver o) (.next (t.deliver o)) := ⟨_, rfl, sameReadable_deliver.2 h, rfl⟩

/-- BUILD reads no packet: its checks see the operands alone, and its commit stores into any buffer alike. -/
theorem buildWith_answersAlike {c : Config} (hc : c.Legal) {id op : Operand} {ps : List Operand} {s t s' : State}
    (hs : s.pbuf.wf) (ht : t.pbuf.wf) (hst : SameReadable s t) (h : buildWith c id op ps s = .next s') :
    AnswersAlike s' (buildWith c id op ps t) := by
  rcases buildWith_next h with ⟨e, he, rfl⟩ | ⟨r, m, hr, hm, rfl⟩
  · rw [buildWith_error he]
    exact answersAlike_deliver hst _
  · have hsome : (storeParams c t.pbuf 0 r.params).isSome := by
      rw [storeParams_isSome_congr t.pbuf s.pbuf, hm, Option.isSome_some]
    obtain ⟨m', hm'⟩ := Option.isSome_iff_exists.1 hsome
    obtain ⟨-, hhost, -⟩ := hst
    rw [buildWith_ok hr hm']
    exact answersAlike_deliver (sameReadable_hold hc hs ht hhost hm hm') _

/-- TOBYTES reads VALID, and the rest of the packet only while VALID is 1. -/
theorem toBytesWith_answersAlike {c : Config} {s t s' : State} (ht : StateInv c t) (hst : SameReadable s t)
    (h : toBytesWith c s = .next s') : AnswersAlike s' (toBytesWith c t) := by
  have ⟨hvalid, _, hread⟩ := hst
  rcases toBytesWith_next h with ⟨hv, rfl⟩ | ⟨hv, rfl⟩
  · rw [toBytesWith_none (hvalid.symm.trans hv)]
    exact answersAlike_deliver hst _
  · obtain ⟨-, -, htheld⟩ := ht
    have htv : t.valid = true := hvalid.symm.trans hv
    obtain ⟨-, -, hnp⟩ := htheld htv
    obtain ⟨hid, hinstr, -, hparams⟩ := hread hv
    rw [toBytesWith_held htv hnp, hid, hinstr, hparams]
    exact answersAlike_deliver hst _

/-- Every instruction answers alike from good states that agree on what it may read. -/
theorem exec_answersAlike {i : Instr} {s t s' : State} (hs : StateInv Config.standard s)
    (ht : StateInv Config.standard t) (hst : SameReadable s t) (h : exec i s = .next s') :
    AnswersAlike s' (exec i t) := by
  rcases exec_uniform i with ⟨-, id, op, ps, hx⟩ | rfl | ⟨o, hx⟩
  · obtain ⟨hswf, -⟩ := hs
    obtain ⟨htwf, -⟩ := ht
    rw [hx] at h ⊢
    exact buildWith_answersAlike standard_legal hswf htwf hst h
  · exact toBytesWith_answersAlike ht hst h
  · rw [hx] at h ⊢
    rw [← Host.Outcome.next.inj h]
    exact answersAlike_deliver hst o

/-- Settles O40, by the step's cases: the event is the same in both states, and what carries it out answers alike. -/
theorem unreadableStateIsNeverObserved : Obligations.UnreadableStateIsNeverObserved := by
  intro s t s' hs ht hst h
  have ⟨_, hhost, _⟩ := hst
  rcases step_cases s with ⟨hh, hx⟩ | ⟨rest, hh, hx⟩ | ⟨cmd, rest, e, hh, hd, hx⟩ | ⟨cmd, rest, i, hh, hd, hx⟩ <;>
    rw [hx] at h <;> have hth := hhost.symm.trans hh
  · rw [← Host.Outcome.next.inj h]
    exact ⟨t, step_idle hth, hst, fun hne => absurd hh hne⟩
  · rw [← Host.Outcome.next.inj h]
    exact ⟨_, step_reset hth, sameReadable_resetEvent rfl, fun _ => rfl⟩
  · rw [undecoded_next h]
    cases e with
    | operandShape => cases h
    | unknownCommand =>
      exact ⟨_, step_undecoded hth hd, sameReadable_deliver.2 (sameReadable_setHost hst rest), fun _ => rfl⟩
  · obtain ⟨t', ht', hagree, hout⟩ :=
      exec_answersAlike (stateInv_setHost.2 hs) (stateInv_setHost.2 ht) (sameReadable_setHost hst rest) h
    exact ⟨t', (step_decoded hth hd).trans ht', hagree, fun _ => hout⟩

end Sys2Proof.Machine
end

section
/-! PROOFS. The order in which commands take effect, and what BUILD leaves unchanged (20_memory.md R55, R58). -/

namespace Sys2Proof.Machine

/-! ## What BUILD leaves unchanged (R55) -/

/-- A commit stores as many bytes as BUILD was offered parameters. -/
theorem length_params_of_buildChecks {c : Config} {id op : Operand} {ps : List Operand} {r : PacketFields}
    (h : buildChecks c id op ps = .ok r) : r.params.length = ps.length := by
  obtain ⟨-, -, -, hps, -⟩ := buildChecks_ok h
  rw [hps, List.length_map]

/-- A BUILD that goes on, by a failed check or by its commit, keeps the host's events, VALID once it is 1, and PBUF from
index `n` on. -/
theorem buildWith_frame {c : Config} {id op : Operand} {ps : List Operand} {s t : State}
    (h : buildWith c id op ps s = .next t) :
    t.host = s.host ∧ (s.valid = true → t.valid = true) ∧ ∀ k, ps.length ≤ k → t.pbuf.read k = s.pbuf.read k := by
  rcases buildWith_next h with ⟨e, -, rfl⟩ | ⟨r, m, hr, hm, rfl⟩
  · exact ⟨rfl, fun hv => hv, fun _ _ => rfl⟩
  · refine ⟨rfl, fun _ => rfl, fun k hk => storeParams_read_outside hm (.inr ?_)⟩
    rwa [Nat.zero_add, length_params_of_buildChecks hr]

/-- Settles O38: each spelling is BUILD on as many parameters as it offers, and BUILD has this frame. -/
theorem buildFrameOfState : Obligations.BuildFrameOfState := by
  intro i s t hb h
  obtain ⟨id, op, ps, hcount, hx, -⟩ := exec_isBuild hb
  rw [hx] at h
  rw [hcount]
  exact buildWith_frame h

/-! ## Commands in order (R58) -/

/-- A run goes through the state its first step leaves. -/
theorem run_succ_of_step {M : Host.Core} {s t : M.State} (h : M.step s = .next t) (k : Nat) :
    M.run (k + 1) s = M.run k t := by
  simp only [Host.Core.run, h]

/-- BUILD's command with an opcode in its `instruction` operand is that opcode's instruction (R80, R85). -/
theorem decode_opcode_command (o : Opcode) (id : Operand) (ps : List Operand) :
    decode ⟨0b000#3, [.val id, .val (.int o.value), .seq ps]⟩ = .ok (o.instr id ps) :=
  congrArg Except.ok (buildInstr_value o id ps)

/-- A presented BUILD of an opcode takes effect as BUILD in the state with the command taken. -/
theorem step_opcode_command {s : State} {o : Opcode} {id : Operand} {ps : List Operand} {rest : List HostEvent}
    (h : s.host = .command ⟨0b000#3, [.val id, .val (.int o.value), .seq ps]⟩ :: rest) :
    step s = buildWith Config.standard id (.int o.value) ps { s with host := rest } := by
  rw [step_decoded h (decode_opcode_command o id ps), exec_opcode]

/-- A presented TOBYTES takes effect as TOBYTES in the state with the command taken. -/
theorem step_toBytes_command {s : State} {rest : List HostEvent} (h : s.host = .command ⟨0b001#3, []⟩ :: rest) :
    step s = toBytesWith Config.standard { s with host := rest } :=
  step_decoded (i := .toBytes) h rfl

/-- TOBYTES of a packet just committed is the frame of the fields that were committed. -/
theorem toBytesWith_hold {c : Config} (hc : c.Legal) {s : State} {r : PacketFields} {m : Memory} (hwf : s.pbuf.wf)
    (hm : storeParams c s.pbuf 0 r.params = some m) (o : CmdOutcome) :
    toBytesWith c ((s.hold r m).deliver o) =
      .next ((s.hold r m).deliver (.success (.frame (frameOf r.id r.op.byte r.params)))) := by
  have hcap : r.params.length ≤ c.maxParams := length_le_of_storeParams hm
  have hnp : (s.hold r m).np.toNat ≤ c.maxParams := (hold_np_toNat hc hcap).trans_le hcap
  have hbytes := toBytesWith_held (c := c) (s := s.hold r m) rfl hnp
  rwa [heldParams_hold hc hwf hm, ← toBytesWith_deliver c _ o] at hbytes

/-- Settles O16: the run by its first step; TOBYTES after BUILD by the two steps' equations, the second taken from the
commit that the first left. -/
theorem commandsTakeEffectInOrder : Obligations.CommandsTakeEffectInOrder := by
  refine ⟨fun k s t h => run_succ_of_step (M := Sys2Proof.core) h k, fun s id o ps rest hwf hid hmin hmax hhost => ?_⟩
  obtain ⟨m, hm, hbuild⟩ := buildWith_commits (by decide) (buildChecks_bytes hid hmin hmax)
    { s with host := .command ⟨0b001#3, []⟩ :: rest }
  have hbytes := toBytesWith_hold (s := { s with host := rest }) standard_legal hwf hm (.success .built)
  exact ⟨_, _, (step_opcode_command hhost).trans hbuild, rfl, (step_toBytes_command rfl).trans hbytes, rfl, rfl⟩

end Sys2Proof.Machine
end

section
/-! PROOFS. The encoding: decoder and encoder are inverse on well-formed instructions (30_encoding.md R85, R89), the frame's
checksum byte (R76), and the frames PARSE accepts (R84, R179). -/

namespace Sys2Proof.Machine

/-! ## BUILD by its spellings, and the other commands -/

/-- The two spellings of BUILD, an opcode's instruction and the general `build` (log 9), and the instructions that are no
BUILD. -/
theorem instr_spelling (i : Instr) :
    (∃ (o : Opcode) (id : Operand) (ps : List Operand), i = o.instr id ps) ∨
    (∃ (id op : Operand) (ps : List Operand), i = .build id op ps) ∨ isBuild i = false := by
  cases i with
  | ping id ps => exact .inl ⟨.ping, id, ps, rfl⟩
  | readData id ps => exact .inl ⟨.readData, id, ps, rfl⟩
  | writeData id ps => exact .inl ⟨.writeData, id, ps, rfl⟩
  | regWrite id ps => exact .inl ⟨.regWrite, id, ps, rfl⟩
  | action id ps => exact .inl ⟨.action, id, ps, rfl⟩
  | reset id ps => exact .inl ⟨.reset, id, ps, rfl⟩
  | syncWrite id ps => exact .inl ⟨.syncWrite, id, ps, rfl⟩
  | build id op ps => exact .inr (.inl ⟨id, op, ps, rfl⟩)
  | toBytes | cksum | parse | le16enc | le16dec | hexstr => exact .inr (.inr rfl)

theorem wellFormed_not_build {i : Instr} (h : isBuild i = false) : WellFormed i = true := by
  cases i with
  | toBytes | cksum | parse | le16enc | le16dec | hexstr => rfl
  | ping | readData | writeData | regWrite | action | reset | syncWrite | build => simp [isBuild] at h

theorem wellFormed_buildInstr (id op : Operand) (ps : List Operand) : WellFormed (buildInstr id op ps) = true := by
  cases op with
  | nonint => rfl
  | int v =>
    cases h : opcodeOf? v with
    | some o =>
      obtain rfl := opcodeOf?_eq_some.1 h
      rw [buildInstr_value]
      exact wellFormed_opcode_instr o id ps
    | none =>
      rw [buildInstr_other h, WellFormed, h]
      rfl

/-- A well-formed `build` is what its own operands decode to. -/
theorem buildInstr_of_wellFormed {id op : Operand} {ps : List Operand} (h : WellFormed (.build id op ps) = true) :
    buildInstr id op ps = .build id op ps := by
  cases op with
  | nonint => rfl
  | int v => exact buildInstr_other (Option.isNone_iff_eq_none.1 h) id ps

/-- Whichever spelling BUILD's operands decode to, the encoder emits them. -/
@[simp] theorem encode_buildInstr (id op : Operand) (ps : List Operand) :
    encode (buildInstr id op ps) = ⟨0b000#3, [.val id, .val op, .seq ps]⟩ := by
  rcases buildInstr_cases id op ps with ⟨o, rfl, h⟩ | h <;> rw [h]
  · exact encode_opcode_instr o id ps
  · rfl

/-- Whichever spelling BUILD's operands decode to, it means BUILD of them. -/
theorem exec_buildInstr (id op : Operand) (ps : List Operand) (s : State) :
    exec (buildInstr id op ps) s = exec (.build id op ps) s := by
  rcases buildInstr_cases id op ps with ⟨o, rfl, h⟩ | h <;> rw [h]
  exact exec_opcode o id ps s

/-! ## Decode of encode -/

theorem decode_encode_build (id op : Operand) (ps : List Operand) :
    decode (encode (.build id op ps)) = .ok (buildInstr id op ps) := rfl

theorem decode_encode_opcode_instr (o : Opcode) (id : Operand) (ps : List Operand) :
    decode (encode (o.instr id ps)) = .ok (o.instr id ps) := by
  rw [encode_opcode_instr, decode_opcode_command]

theorem decode_encode_not_build {i : Instr} (h : isBuild i = false) : decode (encode i) = .ok i := by
  cases i with
  | toBytes | cksum | parse | le16enc | le16dec => rfl
  | hexstr x => cases x <;> rfl
  | ping | readData | writeData | regWrite | action | reset | syncWrite | build => simp [isBuild] at h

/-- Settles O8: an opcode's instruction and a command that is no BUILD decode from their own command, and so does a `build`
whose `instruction` operand is outside the closed set. -/
theorem decodeOfEncode : Obligations.DecodeOfEncode := by
  intro i hwf
  rcases instr_spelling i with ⟨o, id, ps, rfl⟩ | ⟨id, op, ps, rfl⟩ | hi
  · exact decode_encode_opcode_instr o id ps
  · rw [decode_encode_build, buildInstr_of_wellFormed hwf]
  · exact decode_encode_not_build hi

/-- Settles O9: the one instruction that may decode to another is `build`, and then to an opcode's spelling of it. -/
theorem encodedCommandRunsAsItsInstruction : Obligations.EncodedCommandRunsAsItsInstruction := by
  intro i
  rcases instr_spelling i with ⟨o, id, ps, rfl⟩ | ⟨id, op, ps, rfl⟩ | hi
  · exact ⟨_, decode_encode_opcode_instr o id ps, fun _ => rfl⟩
  · exact ⟨_, decode_encode_build id op ps, exec_buildInstr id op ps⟩
  · exact ⟨_, decode_encode_not_build hi, fun _ => rfl⟩

/-! ## Encode of decode -/

/-- Everything the operand rows of R85 can read: BUILD with its parameters omitted (R89) or present, or the own operands of
an instruction that is no BUILD. -/
theorem readOperands_cases {code : BitVec 3} {args : List Arg} {i : Instr} (h : readOperands code args = some i) :
    (∃ id op, code = 0b000#3 ∧ args = [.val id, .val op] ∧ i = buildInstr id op []) ∨
    (∃ id op ps, code = 0b000#3 ∧ args = [.val id, .val op, .seq ps] ∧ i = buildInstr id op ps) ∨
    (isBuild i = false ∧ encode i = ⟨code, args⟩) := by
  have hcode : code = BitVec.ofNat 3 code.toNat := by simp
  unfold readOperands at h
  split at h
  next id op hc => exact .inl ⟨id, op, by rw [hcode, hc], rfl, (Option.some.inj h).symm⟩
  next id op ps hc => exact .inr (.inl ⟨id, op, ps, by rw [hcode, hc], rfl, (Option.some.inj h).symm⟩)
  all_goals cases h
  all_goals next hc => exact .inr (.inr ⟨rfl, by rw [hcode, hc]; rfl⟩)

theorem decode_eq_ok {w : Command} {i : Instr} (h : decode w = .ok i) : readOperands w.code w.args = some i := by
  unfold decode decodeWith at h
  split at h
  · split at h
    next j hj => rw [hj, Except.ok.inj h]
    next => cases h
  · cases h

/-- Settles O10: by the row the operands were read from. -/
theorem decodedCommandIsCanonical : Obligations.DecodedCommandIsCanonical := by
  rintro ⟨code, args⟩ i h
  rcases readOperands_cases (decode_eq_ok h) with ⟨id, op, rfl, rfl, rfl⟩ | ⟨id, op, ps, rfl, rfl, rfl⟩ | ⟨hi, henc⟩
  · exact ⟨wellFormed_buildInstr id op [], .inr ⟨id, op, rfl, encode_buildInstr id op []⟩⟩
  · exact ⟨wellFormed_buildInstr id op ps, .inl (encode_buildInstr id op ps)⟩
  · exact ⟨wellFormed_not_build hi, .inl henc⟩

/-- Settles O11: BUILD of an opcode is that opcode's row, BUILD of 0x82 stays BUILD, and the other words compute. -/
theorem wordsDecodeAsTheTablesSay : Obligations.WordsDecodeAsTheTablesSay :=
  ⟨decode_opcode_command .ping (.int 0x01) [],
    decode_opcode_command .syncWrite (.int 0xFE) [.int 30, .int 1, .int 1, .int 16],
    decodeOfEncode (.build (.int 1) (.int 0x82) []) (by decide), rfl, rfl, rfl, rfl⟩

/-! ## The checksum byte of the frame (R76) -/

theorem cksum_eq_not (id ib : Byte) (ps : List Byte) :
    cksum id ib ps = ~~~ (BitVec.ofNat 8 (checksumSum id ib ps)) := by
  apply BitVec.eq_of_toNat_eq
  rw [cksum_toNat, BitVec.toNat_not, BitVec.toNat_ofNat]

theorem frameOf_getLast? (id ib : Byte) (ps : List Byte) : (frameOf id ib ps).getLast? = some (cksum id ib ps) :=
  List.getLast?_concat

/-- Settles O17: the frame ends in the checksum, whose sum runs over ID, LENGTH, INSTRUCTION and the parameters. -/
theorem checksumIsComplementOfSum : Obligations.ChecksumIsComplementOfSum := by
  intro id ib ps
  rw [frameOf_getLast?, cksum_eq_not, checksumSum, lengthOf, Config.lengthBias, sumBytes]

/-! ## The frames PARSE accepts (R84, R179) -/

/-- A sequence of at least 6 bytes is its five leading bytes, its parameters and its last byte (R70). -/
theorem eq_fields_of_six_le_length {B : List Byte} (h : 6 ≤ B.length) :
    B = [byteAt B 0, byteAt B 1, byteAt B 2, byteAt B 3, byteAt B 4] ++ paramsOf B ++ [byteAt B (B.length - 1)] := by
  match B, h with
  | b0 :: b1 :: b2 :: b3 :: b4 :: b5 :: tail, _ =>
    obtain ⟨ps, ck, htail⟩ := (b5 :: tail).eq_nil_or_concat'.resolve_left (List.cons_ne_nil b5 tail)
    simp [htail, byteAt, paramsOf, Config.frameOverhead, List.getD_eq_getElem?_getD]

theorem paramsOf_length {B : List Byte} (h : 6 ≤ B.length) : (paramsOf B).length = B.length - 6 := by
  rw [paramsOf, List.length_take, List.length_drop, Config.frameOverhead]
  omega

/-- What PARSE accepts is the frame of the fields it returns, with a legal ID and a count below the ceiling. -/
theorem eq_frameOf_of_parseFrame {c : Config} {B : List Byte} {p : Parsed} (h : parseFrame c B = .ok p) :
    B = frameOf p.id p.errorByte p.params ∧ p.id.toNat ≤ 0xFE ∧ p.params.length ≤ c.maxParams := by
  obtain ⟨hlen, h0, h1, h3, hn, hck, hid, rfl⟩ := parseFrame_ok.1 h
  have hparams : (paramsOf B).length = B.length - 6 := paramsOf_length hlen
  have hlength : byteAt B 3 = BitVec.ofNat 8 (lengthOf (paramsOf B)) := by
    have hbyte := (byteAt B 3).isLt
    apply BitVec.eq_of_toNat_eq
    rw [BitVec.toNat_ofNat, lengthOf, hparams, Config.lengthBias]
    omega
  refine ⟨?_, hid, hparams.trans_le hn⟩
  calc B = _ := eq_fields_of_six_le_length hlen
    _ = frameOf (byteAt B 2) (byteAt B 4) (paramsOf B) := by rw [h0, h1, hlength, hck]; rfl

/-- PARSE accepts exactly the frames of a legal ID with no more than `MAX_PARAMS` parameters, and returns their fields. -/
theorem parseFrame_eq_ok_iff {c : Config} (hc : c.Legal) {B : List Byte} {p : Parsed} :
    parseFrame c B = .ok p ↔
      B = frameOf p.id p.errorByte p.params ∧ p.id.toNat ≤ 0xFE ∧ p.params.length ≤ c.maxParams := by
  refine ⟨eq_frameOf_of_parseFrame, ?_⟩
  rintro ⟨hB, hid, hn⟩
  rw [hB]
  exact parseFrame_frameOf hc hid p.errorByte hn

/-- PARSE on this hardware hands over the fields of a sequence that passes its checks. -/
theorem exec_parse_of_ok {B : List Byte} {p : Parsed} (h : parseFrame Config.standard B = .ok p) (s : State) :
    exec (.parse B) s = .next (s.deliver (.success (.parsed p))) := by
  rw [exec, execParse, parseWith, h]
  rfl

/-- Settles O42: the equivalence at every legal configuration; on this hardware a frame's fields are the outcome. -/
theorem parseAcceptsExactlyTheFrames : Obligations.ParseAcceptsExactlyTheFrames :=
  ⟨fun _ _ _ hc => parseFrame_eq_ok_iff hc,
    fun s _ eb _ hid hn => exec_parse_of_ok (parseFrame_frameOf standard_legal hid eb hn) s⟩

end Sys2Proof.Machine
end

section
/-! PROOFS. The packet base: the checksum's arithmetic (40_packet_base.md R100, R102), TOBYTES with and without a packet
(R103), and the round trip of BUILD, TOBYTES and PARSE (R104). -/

namespace Sys2Proof.Machine

/-! ## The fields of a frame by index (R70) -/

/-- LENGTH fits in a byte when no more than 253 parameters follow (R5, R71). -/
theorem lengthByte_toNat {ps : List Byte} (hn : ps.length ≤ 253) :
    (BitVec.ofNat 8 (lengthOf ps)).toNat = ps.length + 2 := by
  rw [BitVec.toNat_ofNat, lengthOf, Config.lengthBias]
  omega

theorem frameOf_getElem?_length {ps : List Byte} (hn : ps.length ≤ 253) (id ib : Byte) :
    (frameOf id ib ps)[3]?.map BitVec.toNat = some (ps.length + 2) :=
  congrArg some (lengthByte_toNat hn)

theorem frameOf_getElem?_param {ps : List Byte} {k : Nat} (hk : k < ps.length) (id ib : Byte) :
    (frameOf id ib ps)[5 + k]? = ps[k]? := by
  rw [frameOf, List.append_assoc, List.getElem?_append_right (Nat.le_add_right 5 k), List.length_cons]
  simp [List.getElem?_append_left hk]

theorem frameOf_getElem?_cksum (id ib : Byte) (ps : List Byte) :
    (frameOf id ib ps)[5 + ps.length]? = some (cksum id ib ps) := by
  rw [← frameOf_getLast?, List.getLast?_eq_getElem?, frameOf_length]
  congr 1
  omega

/-! ## The checksum's arithmetic (R100, R102) -/

/-- Settles O18: CKSUM has no check to fail, and the checksum's value is R100's. -/
theorem cksumAnswersForEveryOperand : Obligations.CksumAnswersForEveryOperand := fun id ib ps _ =>
  ⟨cksum id ib ps, rfl, cksum_toNat id ib ps⟩

@[simp] theorem sumBytes_cons (p : Byte) (ps : List Byte) : sumBytes (p :: ps) = p.toNat + sumBytes ps := by
  simp [sumBytes]

/-- A wrapping accumulator holds the exact sum modulo 256: the carries it drops are multiples of 256. -/
theorem foldl_add_eq_ofNat_sumBytes (ps : List Byte) (n : Nat) :
    ps.foldl (· + ·) (BitVec.ofNat 8 n) = BitVec.ofNat 8 (n + sumBytes ps) := by
  induction ps generalizing n with
  | nil => simp [sumBytes]
  | cons p ps ih =>
    have hp : BitVec.ofNat 8 n + p = BitVec.ofNat 8 (n + p.toNat) := by
      rw [BitVec.ofNat_add, BitVec.ofNat_toNat, BitVec.setWidth_eq]
    rw [List.foldl_cons, hp, ih, sumBytes_cons, Nat.add_assoc]

theorem cksum_eq_not_foldl (id ib : Byte) (ps : List Byte) :
    cksum id ib ps = ~~~ (ps.foldl (· + ·) (id + BitVec.ofNat 8 (ps.length + 2) + ib)) := by
  have hstart : id + BitVec.ofNat 8 (ps.length + 2) + ib = BitVec.ofNat 8 (id.toNat + (ps.length + 2) + ib.toNat) := by
    simp only [BitVec.ofNat_add, BitVec.ofNat_toNat, BitVec.setWidth_eq]
  rw [hstart, foldl_add_eq_ofNat_sumBytes, cksum_eq_not, checksumSum, lengthOf, Config.lengthBias]

/-- ID to CHECKSUM of a frame add up to `S + (255 - S mod 256)`, which is `0xFF` modulo 256. -/
theorem frameOf_sum_mod {ps : List Byte} (hn : ps.length ≤ 253) (id ib : Byte) :
    (((frameOf id ib ps).drop 2).map BitVec.toNat).sum % 256 = 0xFF := by
  have hsum : (((frameOf id ib ps).drop 2).map BitVec.toNat).sum =
      checksumSum id ib ps + (255 - checksumSum id ib ps % 256) := by
    rw [← cksum_toNat, checksumSum, lengthOf, Config.lengthBias, ← lengthByte_toNat hn, sumBytes]
    simp [frameOf, Nat.add_assoc]
  rw [hsum]
  omega

theorem sumBytes_le (ps : List Byte) : sumBytes ps ≤ ps.length * 255 := by
  have hbyte : ∀ v ∈ ps.map BitVec.toNat, v ≤ 255 := by
    simp only [List.forall_mem_map]
    intro p _
    have := p.isLt
    omega
  simpa [sumBytes] using List.sum_le_card_nsmul _ 255 hbyte

/-- `64255 = 254 + 251 + 255 + 249 * 255`: every field of a legal packet at its largest. -/
theorem checksumSum_le {id : Byte} {ps : List Byte} (hid : id.toNat ≤ 0xFE) (ib : Byte)
    (hn : ps.length ≤ Config.standard.maxParams) : checksumSum id ib ps ≤ 64255 := by
  have hn : ps.length ≤ 249 := hn
  have hib := ib.isLt
  have hps := sumBytes_le ps
  rw [checksumSum, lengthOf, Config.lengthBias]
  omega

/-- Settles O19, by its four laws. -/
theorem checksumArithmetic : Obligations.ChecksumArithmetic := fun id ib ps =>
  ⟨cksum_eq_not_foldl id ib ps, fun hn => frameOf_sum_mod hn id ib, fun _ h => cksum_perm h id ib,
    fun hid hn => checksumSum_le hid ib hn⟩

/-! ## TOBYTES (R103) -/

/-- Settles O20, by TOBYTES' equation for a block that holds no packet. -/
theorem tobytesWithoutPacketIsRefused : Obligations.TobytesWithoutPacketIsRefused := fun _ h =>
  toBytesWith_none (c := Config.standard) h

@[simp] theorem heldParams_length (s : State) : (heldParams s).length = s.np.toNat := by simp [heldParams]

theorem heldParams_getElem? {s : State} {k : Nat} (hk : k < s.np.toNat) :
    (heldParams s)[k]? = some (s.pbuf.read k) := by
  simp [heldParams, hk]

/-- Settles O21: the answer is the frame of the registers, and each of its fields is at its index. -/
theorem tobytesReturnsHeldFrame : Obligations.TobytesReturnsHeldFrame := by
  intro s ⟨_, _, hheld⟩ hv
  obtain ⟨-, -, hnp⟩ := hheld hv
  have hle : (heldParams s).length ≤ 253 := by
    rw [heldParams_length]
    exact hnp.trans standard_legal
  refine ⟨_, toBytesWith_held hv hnp, ?_, rfl, rfl, rfl, ?_, rfl, fun k hk => ?_, ?_⟩
  · rw [frameOf_length, heldParams_length]
  · rw [frameOf_getElem?_length hle, heldParams_length]
  · rw [frameOf_getElem?_param (by rwa [heldParams_length]), heldParams_getElem? hk]
  · rw [← heldParams_length, frameOf_getElem?_cksum]

/-- A second TOBYTES answers as the first did and leaves the state the first left. -/
theorem toBytesWith_idem {c : Config} {s t : State} (h : toBytesWith c s = .next t) : toBytesWith c t = .next t := by
  rcases toBytesWith_next h with ⟨-, ht⟩ | ⟨-, ht⟩ <;>
    calc toBytesWith c t = toBytesWith c s := by rw [ht, toBytesWith_deliver]
      _ = .next t := h

/-! ## BUILD, TOBYTES and PARSE (R104) -/

theorem frameOf_getLast?_toNat (id ib : Byte) (ps : List Byte) :
    (frameOf id ib ps).getLast?.map BitVec.toNat =
      some (255 - (id.toNat + (ps.length + 2) + ib.toNat + (ps.map BitVec.toNat).sum) % 256) := by
  rw [frameOf_getLast?, Option.map_some, cksum_toNat, checksumSum, lengthOf, Config.lengthBias, sumBytes]

/-- Settles O22: the round trip within the opcode's row gives the frame and (d), TOBYTES' idempotence (c), and the fields
of a frame the rest. -/
theorem buildSerialiseParse : Obligations.BuildSerialiseParse := by
  intro s id o ps hwf hid hmin hmax
  have hn : ps.length ≤ 253 := (hmax.trans (lut_max_le (by decide) o)).trans standard_legal
  obtain ⟨t, u, hbuild, -, hbuilt, hbytes, hframe, hparse⟩ :=
    build_toBytes_parse_withinCount standard_legal (by decide) hwf hid hmin hmax
  simp only [← exec_eq_execWith] at hbuild hbytes hparse
  refine ⟨t, u, frameOf id o.byte ps, hbuild, hbuilt, hbytes, hframe, frameOf_length id o.byte ps,
    frameOf_getLast?_toNat id o.byte ps, toBytesWith_idem hbytes, hparse, rfl, rfl, ⟨id, rfl, hid⟩, ?_,
    ⟨o.byte, rfl, opcode_byte_mem o⟩⟩
  rw [frameOf_getElem?_length hn, frameOf_length]
  rfl

end Sys2Proof.Machine
end

section
/-! PROOFS. The instruction packet: BUILD's five checks in order and its commit (41_instruction_packet.md R120 to R126), and
the frames of the seven opcodes (R130 to R137). -/

namespace Sys2Proof.Machine

/-! ## The commit (R120, R126) -/

/-- Settles O23: legal operands pass the checks, and the commit's registers and buffer are those of the stored packet. -/
theorem buildCommitsItsOperands : Obligations.BuildCommitsItsOperands := by
  intro s id o ps hwf hid hmin hmax
  obtain ⟨m, hm, hbuild⟩ := buildWith_commits (by decide) (buildChecks_bytes hid hmin hmax) s
  have hnp : (s.hold ⟨id, o, ps⟩ m).np.toNat = ps.length := hold_np_toNat standard_legal (length_le_of_storeParams hm)
  have hheld : heldParams (s.hold ⟨id, o, ps⟩ m) = ps := heldParams_hold standard_legal hwf hm
  obtain ⟨hhost, -, hread⟩ := buildWith_frame hbuild
  rw [List.length_map] at hread
  exact ⟨_, hbuild, rfl, rfl, rfl, hnp, hheld, hread, storeParams_wf hwf hm, hhost, rfl⟩

/-! ## The acceptance set (law L9) -/

/-- BUILD's checks pass on exactly the operands of law L9. -/
theorem exists_buildChecks_ok_iff {c : Config} {id op : Operand} {ps : List Operand} :
    (∃ r, buildChecks c id op ps = .ok r) ↔
    ∃ (i : Int) (o : Opcode) (vs : List Int), id = .int i ∧ (0x00 ≤ i ∧ i ≤ 0xFE) ∧ op = .int o.value ∧
      ps = vs.map .int ∧ ((lut c o).min ≤ vs.length ∧ vs.length ≤ (lut c o).max) ∧ ∀ v ∈ vs, 0x00 ≤ v ∧ v ≤ 0xFF := by
  constructor
  · rintro ⟨r, hr⟩
    obtain ⟨⟨i, v, vs⟩, htypes, hvalues⟩ := bind_ok.1 hr
    obtain ⟨rfl, rfl, rfl⟩ := checkTypes_ok.1 htypes
    obtain ⟨hi, rfl, hn, hbyte, -, -⟩ := checkValues_ok.1 hvalues
    exact ⟨i, r.op, vs, rfl, hi, rfl, rfl, hn, hbyte⟩
  · rintro ⟨i, o, vs, rfl, hi, rfl, rfl, hn, hbyte⟩
    refine ⟨⟨toByte i, o, vs.map toByte⟩, ?_⟩
    rw [buildChecks_ints]
    exact checkValues_ok.2 ⟨hi, rfl, hn, hbyte, rfl, rfl⟩

/-- BUILD ends in `built` exactly when its checks pass, whatever the state. -/
theorem exec_build_succeeds_iff {id op : Operand} {ps : List Operand} {s : State} :
    (∃ t, exec (.build id op ps) s = .next t ∧ t.outcome = some (.success .built)) ↔
      ∃ r, buildChecks Config.standard id op ps = .ok r := by
  constructor
  · rintro ⟨t, hbuild, hout⟩
    rcases buildWith_next (c := Config.standard) hbuild with ⟨e, -, rfl⟩ | ⟨r, m, hr, -⟩
    · cases hout
    · exact ⟨r, hr⟩
  · rintro ⟨r, hr⟩
    obtain ⟨m, -, hbuild⟩ := buildWith_commits (by decide) hr s
    exact ⟨_, hbuild, rfl⟩

/-- Settles O24: BUILD succeeds when its checks pass, and they pass on that set. -/
theorem buildAcceptanceSet : Obligations.BuildAcceptanceSet := fun _ _ _ _ =>
  exec_build_succeeds_iff.trans exists_buildChecks_ok_iff

/-! ## The five checks, each in its turn (R121 to R125) -/

/-- A failed type check ends BUILD, whatever the values. -/
theorem exec_build_of_checkTypes_error {id op : Operand} {ps : List Operand} {e : ErrorRecord}
    (h : checkTypes id op ps = .error e) (s : State) : exec (.build id op ps) s = .next (s.deliver (.error e)) :=
  buildWith_error (bind_error.2 (.inl h)) s

/-- A failed check on the values ends a BUILD whose operands are all integers. -/
theorem exec_build_of_checkValues_error {i v : Int} {vs : List Int} {e : ErrorRecord}
    (h : checkValues Config.standard i v vs = .error e) (s : State) :
    exec (.build (.int i) (.int v) (vs.map .int)) s = .next (s.deliver (.error e)) :=
  buildWith_error ((buildChecks_ints Config.standard i v vs).trans h) s

/-- Settles O25: the three ways the type check fails, in the order it examines the operands. -/
theorem buildTypeCheckComesFirst : Obligations.BuildTypeCheckComesFirst := fun s _ _ rest i v vs =>
  ⟨exec_build_of_checkTypes_error (checkTypes_error.2 (.inl ⟨rfl, rfl⟩)) s,
    exec_build_of_checkTypes_error (checkTypes_error.2 (.inr ⟨i, rfl, .inl ⟨rfl, rfl⟩⟩)) s,
    exec_build_of_checkTypes_error
      (checkTypes_error.2 (.inr ⟨i, rfl, .inr ⟨v, rfl, vs, rest, rfl, rfl⟩⟩)) s⟩

/-- Check 2 (R122): an ID out of range is `V_ID`, whatever the instruction and the parameters. -/
theorem checkValues_vId {i : Int} (c : Config) (v : Int) (vs : List Int) (hi : i < 0 ∨ 0xFF ≤ i) :
    checkValues c i v vs = .error ⟨.vId, ⟨.id, .int i, .range 0x00 0xFE⟩⟩ :=
  checkValues_error.2 (.inl ⟨by omega, rfl⟩)

/-- Check 3 (R123): with a legal ID an integer that is no opcode's value is `V_INSTR`, whatever the parameters. -/
theorem checkValues_vInstr {i v : Int} (c : Config) (vs : List Int) (hi : 0x00 ≤ i ∧ i ≤ 0xFE)
    (hv : ∀ o : Opcode, v ≠ o.value) :
    checkValues c i v vs = .error ⟨.vInstr, ⟨.instruction, .int v, .opcodes (Opcode.all.map Opcode.byte)⟩⟩ :=
  checkValues_error.2 (.inr ⟨hi, .inl ⟨hv, rfl⟩⟩)

/-- Check 4 (R124): with a legal ID and an opcode a count outside its row is `V_COUNT`, whatever the parameters' values. -/
theorem checkValues_vCount {c : Config} {i : Int} {o : Opcode} {vs : List Int} (hi : 0x00 ≤ i ∧ i ≤ 0xFE)
    (hn : vs.length < (lut c o).min ∨ (lut c o).max < vs.length) :
    checkValues c i o.value vs =
      .error ⟨.vCount, ⟨.parameters, .int vs.length, .range (lut c o).min (lut c o).max⟩⟩ :=
  checkValues_error.2 (.inr ⟨hi, .inr ⟨o, rfl, .inl ⟨by omega, rfl⟩⟩⟩)

/-- Check 5 (R125): with checks 2 to 4 passed an offending value is `V_PARAM`. -/
theorem checkValues_vParam {c : Config} {i : Int} {o : Opcode} {vs : List Int} (hi : 0x00 ≤ i ∧ i ≤ 0xFE)
    (hn : (lut c o).min ≤ vs.length ∧ vs.length ≤ (lut c o).max) (hbad : offending vs ≠ []) :
    checkValues c i o.value vs = .error ⟨.vParam, ⟨.parameters, .ints (offending vs), .range 0x00 0xFF⟩⟩ :=
  checkValues_error.2 (.inr ⟨hi, .inr ⟨o, rfl, .inr ⟨hn, hbad, rfl⟩⟩⟩)

/-- Settles O26: check 2 on one side of the bound, and the commit of a PING packet to ID 0xFE on the other. -/
theorem buildRejectsIdOutOfRange : Obligations.BuildRejectsIdOutOfRange := by
  intro s
  refine ⟨fun i v vs hi => exec_build_of_checkValues_error (checkValues_vId Config.standard v vs hi) s, ?_⟩
  have hchecks : buildChecks Config.standard (byteOperand 0xFE#8) (.int Opcode.ping.value) [] = .ok ⟨0xFE#8, .ping, []⟩ :=
    buildChecks_bytes (ps := []) (by decide) (by decide) (by decide)
  obtain ⟨m, -, hbuild⟩ := buildWith_commits (by decide) hchecks s
  exact ⟨_, hbuild, rfl, rfl⟩

/-- Settles O27: check 3, since every opcode's value is in the printed set. -/
theorem buildRejectsUnlistedInstruction : Obligations.BuildRejectsUnlistedInstruction := by
  intro s i v vs h0 hFE hv
  have hne : ∀ o : Opcode, v ≠ o.value := fun o ho => hv (ho ▸ opcode_value_mem o)
  exact exec_build_of_checkValues_error (checkValues_vInstr Config.standard vs ⟨h0, hFE⟩ hne) s

/-- Settles O28: check 4 for every row, then PING's and WRITE_DATA's; a count of MAX_PARAMS is in the acceptance set. -/
theorem buildRejectsParameterCount : Obligations.BuildRejectsParameterCount := by
  intro s i vs h0 hFE
  have hcount : ∀ o : Opcode, vs.length < (lut Config.standard o).min ∨ (lut Config.standard o).max < vs.length →
      exec (.build (.int i) (.int o.value) (vs.map .int)) s =
        .next (s.deliver (.error ⟨.vCount, ⟨.parameters, .int vs.length,
          .range (lut Config.standard o).min (lut Config.standard o).max⟩⟩)) :=
    fun o hn => exec_build_of_checkValues_error (checkValues_vCount ⟨h0, hFE⟩ hn) s
  refine ⟨hcount, fun hlen => ?_, fun hlen hbyte => ?_, fun hlen => ?_⟩
  · have hping := hcount .ping (.inr (hlen ▸ Nat.one_pos))
    rw [hlen] at hping
    exact hping
  · have hrow : 2 ≤ vs.length ∧ vs.length ≤ Config.standard.maxParams := ⟨hlen ▸ by decide, hlen.le⟩
    exact (buildAcceptanceSet _ _ _ s).2 ⟨i, .writeData, vs, rfl, ⟨h0, hFE⟩, rfl, rfl, hrow, hbyte⟩
  · exact hcount .writeData (.inr (hlen ▸ Nat.lt_succ_self _))

/-- The offending values of R125 are those below 0x00 or above 0xFF. -/
theorem offending_eq_filter (vs : List Int) :
    offending vs = vs.filter (fun v => decide (v < 0x00) || decide (0xFF < v)) := by
  refine List.filter_congr fun v _ => ?_
  rw [Bool.eq_iff_iff, Bool.not_eq_true', Bool.eq_false_iff, Ne, isByte_iff, Bool.or_eq_true, decide_eq_true_eq,
    decide_eq_true_eq]
  omega

/-- Settles O29: check 5, whose record holds the offending values. -/
theorem buildRejectsParameterOutOfRange : Obligations.BuildRejectsParameterOutOfRange := by
  rintro s i o vs h0 hFE hmin hmax ⟨v, hmem, hv⟩
  have hbad : offending vs ≠ [] := fun hnil => by
    have := offending_eq_nil.1 hnil v hmem
    omega
  rw [← offending_eq_filter]
  exact exec_build_of_checkValues_error (checkValues_vParam ⟨h0, hFE⟩ ⟨hmin, hmax⟩ hbad) s

/-! ## A BUILD that fails (R126, R226) -/

/-- Settles O36: a BUILD that ends in an error changes the outcome alone, which TOBYTES does not read. -/
theorem failedBuildKeepsOlderFrame : Obligations.FailedBuildKeepsOlderFrame := by
  intro i s t e _ h herr
  rcases exec_next h with ⟨o, rfl⟩ | ⟨-, r, m, rfl⟩
  · exact exec_deliver .toBytes s o
  · cases herr

/-! ## The seven opcodes (R130 to R137) -/

/-- Settles O30: each opcode's meaning is BUILD with its value, which R80 prints. -/
theorem opcodeIsBuildWithItsValue : Obligations.OpcodeIsBuildWithItsValue := fun id ps s =>
  ⟨exec_opcode .ping id ps s, exec_opcode .readData id ps s, exec_opcode .writeData id ps s,
    exec_opcode .regWrite id ps s, exec_opcode .action id ps s, exec_opcode .reset id ps s,
    exec_opcode .syncWrite id ps s⟩

/-- The registers of a committed packet without parameters describe none, whatever the memory. -/
theorem heldParams_hold_nil {s : State} {r : PacketFields} {m : Memory} (h : r.params = []) :
    heldParams (s.hold r m) = [] := by
  simp [heldParams, h]

/-- An opcode's instruction builds the frame of its operands when their count is within its row. PBUF's canonical form
matters only where a parameter is stored. -/
theorem opcode_buildsFrame {s : State} {id : Byte} {o : Opcode} {ps : List Byte} (hwf : ps ≠ [] → s.pbuf.wf)
    (hid : id.toNat ≤ 0xFE) (hmin : (lut Config.standard o).min ≤ ps.length)
    (hmax : ps.length ≤ (lut Config.standard o).max) :
    BuildsFrame (o.instr (byteOperand id) (ps.map byteOperand)) s (frameOf id o.byte ps) := by
  obtain ⟨m, hm, hbuild⟩ := buildWith_commits (by decide) (buildChecks_bytes hid hmin hmax) s
  have hcap : ps.length ≤ Config.standard.maxParams := length_le_of_storeParams hm
  have hnp := (hold_np_toNat (s := s) (r := ⟨id, o, ps⟩) (m := m) standard_legal hcap).trans_le hcap
  have hheld : heldParams (s.hold ⟨id, o, ps⟩ m) = ps := by
    cases ps with
    | nil => exact heldParams_hold_nil rfl
    | cons p ps => exact heldParams_hold standard_legal (hwf (List.cons_ne_nil p ps)) hm
  have hbytes := toBytesWith_held (s := (s.hold ⟨id, o, ps⟩ m).deliver (.success .built)) rfl hnp
  rw [heldParams_deliver, hheld] at hbytes
  exact ⟨_, _, (exec_opcode _ _ _ _).trans hbuild, rfl, rfl, rfl, hbytes, samePacket_deliver _ _, rfl⟩

/-- An opcode's instruction ends with `V_COUNT` when the count is outside its row. -/
theorem opcode_vCount {id : Byte} (o : Opcode) {vs : List Int} (hid : id.toNat ≤ 0xFE)
    (hn : vs.length < (lut Config.standard o).min ∨ (lut Config.standard o).max < vs.length) (s : State) :
    exec (o.instr (byteOperand id) (vs.map .int)) s =
      .next (s.raise ⟨.vCount, ⟨.parameters, .int vs.length,
        .range (lut Config.standard o).min (lut Config.standard o).max⟩⟩) :=
  (exec_opcode _ _ _ _).trans (buildWith_error (buildChecks_count hid hn) s)

/-- The frame as R130 to R136 print it: the fields in order, CHECKSUM the complement of their sum. -/
theorem frameOf_eq_printed (id ib : Byte) (ps : List Byte) :
    frameOf id ib ps = [0xFF#8, 0xFF#8, id, BitVec.ofNat 8 (ps.length + 2), ib] ++ ps ++
      [~~~ BitVec.ofNat 8 (id.toNat + (ps.length + 2) + ib.toNat + (ps.map BitVec.toNat).sum)] := by
  rw [frameOf, cksum_eq_not]
  rfl

/-- The frame of an opcode that takes no parameter (R130, R134, R135), in any state. -/
theorem parameterless_buildsFrame {id : Byte} {o : Opcode} (hid : id.toNat ≤ 0xFE)
    (hmin : (lut Config.standard o).min = 0) (s : State) :
    BuildsFrame (o.instr (byteOperand id) []) s
      [0xFF#8, 0xFF#8, id, 0x02#8, o.byte, ~~~ BitVec.ofNat 8 (id.toNat + 2 + o.byte.toNat)] := by
  have hframe := opcode_buildsFrame (s := s) (o := o) (ps := []) (fun h => absurd rfl h) hid hmin.le (Nat.zero_le _)
  rwa [frameOf_eq_printed] at hframe

/-- Settles O31: the frame without parameters, and a row whose maximum is 0. -/
theorem parameterlessOpcodesBuildTheirFrames : Obligations.ParameterlessOpcodesBuildTheirFrames := by
  intro s id hid
  refine ⟨parameterless_buildsFrame (o := .ping) hid rfl s, parameterless_buildsFrame (o := .action) hid rfl s,
    parameterless_buildsFrame (o := .reset) hid rfl s, fun vs hne => ?_⟩
  have hpos : 0 < vs.length := List.length_pos_iff.2 hne
  exact ⟨opcode_vCount .ping hid (.inr hpos) s, opcode_vCount .action hid (.inr hpos) s,
    opcode_vCount .reset hid (.inr hpos) s⟩

/-- Settles O32: the frame of two parameters, whose sum is written out, and a row that admits no other count. -/
theorem readDataBuildsItsFrame : Obligations.ReadDataBuildsItsFrame := by
  intro s id hwf hid
  refine ⟨fun p0 p1 => ?_, fun vs hn => opcode_vCount .readData hid (Nat.lt_or_gt_of_ne hn) s⟩
  have hframe := opcode_buildsFrame (o := .readData) (ps := [p0, p1]) (fun _ => hwf) hid le_rfl le_rfl
  have hsum : id.toNat + (2 + 2) + Opcode.readData.byte.toNat + (p0.toNat + (p1.toNat + 0)) =
      id.toNat + 6 + p0.toNat + p1.toNat := by
    have hbyte : Opcode.readData.byte.toNat = 2 := rfl
    omega
  rw [frameOf_eq_printed] at hframe
  rw [← hsum]
  exact hframe

/-- The length of a frame of no more than MAX_PARAMS parameters (R72). -/
theorem frameOf_length_le {ps : List Byte} (hn : ps.length ≤ Config.standard.maxParams) (id ib : Byte) :
    (frameOf id ib ps).length ≤ 255 := by
  have hn : ps.length ≤ 249 := hn
  rw [frameOf_length]
  omega

/-- Settles O33: the frame of either opcode's row, and the counts outside it. -/
theorem writeOpcodesBuildTheirFrames : Obligations.WriteOpcodesBuildTheirFrames := by
  intro s id hwf hid
  refine ⟨fun ps hmin hmax => ?_, fun vs hn => ⟨opcode_vCount .writeData hid hn s, opcode_vCount .regWrite hid hn s⟩⟩
  refine ⟨_, _, opcode_buildsFrame (o := .writeData) (fun _ => hwf) hid hmin hmax, rfl,
    opcode_buildsFrame (o := .regWrite) (fun _ => hwf) hid hmin hmax, rfl, frameOf_length _ _ _, frameOf_length _ _ _, ?_,
    frameOf_length_le hmax _ _⟩
  rw [frameOf_length]
  omega

/-- Settles O34: the frame of SYNC_WRITE's row, and the counts outside it. -/
theorem syncWriteBuildsItsFrame : Obligations.SyncWriteBuildsItsFrame := by
  intro s id hwf hid
  refine ⟨fun ps hmin hmax => ?_, fun vs hn => opcode_vCount .syncWrite hid hn s⟩
  refine ⟨_, opcode_buildsFrame (o := .syncWrite) (fun _ => hwf) hid hmin hmax, rfl, ?_, frameOf_length_le hmax _ _⟩
  rw [frameOf_length]
  omega

end Sys2Proof.Machine
end

section
/-! PROOFS. The utility codecs: LE16ENC and LE16DEC as inverses, and HEXSTR's text (42_codecs.md R150 to R157). -/

namespace Sys2Proof.Machine

/-! ## A stateless command by what its checks give -/

theorem finish_of_ok {x : Except ErrorRecord Result} {r : Result} (h : x = .ok r) (s : State) :
    finish s x = .next (s.deliver (.success r)) := by rw [h]; rfl

theorem finish_of_error {x : Except ErrorRecord Result} {e : ErrorRecord} (h : x = .error e) (s : State) :
    finish s x = .next (s.deliver (.error e)) := by rw [h]; rfl

/-- A stateless command that ends in success passed its checks with that result. -/
theorem ok_of_finish_success {x : Except ErrorRecord Result} {s t : State} {r : Result} (h : finish s x = .next t)
    (hr : t.outcome = some (.success r)) : x = .ok r := by
  cases x with
  | ok v =>
    obtain rfl := Host.Outcome.next.inj h
    obtain rfl : v = r := by simpa [State.succeed, State.deliver] using hr
    rfl
  | error e =>
    obtain rfl := Host.Outcome.next.inj h
    simp [State.raise, State.deliver] at hr

/-! ## LE16ENC and LE16DEC (R150, R152, R153) -/

/-- An integer of 16 bits is a low and a high byte. -/
theorem exists_bytes_of_word {v : Int} (h : 0 ≤ v ∧ v ≤ 0xFFFF) :
    ∃ low high : Byte, v = low.toNat + 256 * high.toNat := by
  refine ⟨toByte (v % 256), toByte (v / 256), ?_⟩
  rw [toByte_toNat (by omega), toByte_toNat (by omega)]
  omega

theorem le16encode_bytes (low high : Byte) :
    le16encode (.int (low.toNat + 256 * high.toNat)) = .ok (.bytePair low high) := by
  have hl := low.isLt
  have hh := high.isLt
  have hmod : ((low.toNat : Int) + 256 * high.toNat) % 256 = low.toNat := by omega
  have hdiv : ((low.toNat : Int) + 256 * high.toNat) / 256 = high.toNat := by omega
  refine bind_ok.2 ⟨_, requireInt_ok.2 rfl, ?_⟩
  rw [if_pos (inRange_iff.2 (by omega)), hmod, hdiv, toByte_natCast, toByte_natCast]

theorem le16encode_outOfRange {v : Int} (h : v < 0 ∨ 0xFFFF < v) :
    le16encode (.int v) = .error ⟨.vLeRange, ⟨.value, .int v, .range 0 0xFFFF⟩⟩ :=
  bind_error.2 (.inr ⟨v, requireInt_ok.2 rfl, if_neg fun hr => by
    have := inRange_iff.1 hr
    omega⟩)

/-- Settles O49: a value in range is its two bytes; outside, the range check fails, and before it the type check. -/
theorem le16encResult : Obligations.Le16encResult := by
  refine fun s => ⟨fun v h0 hmax => ?_, fun v hv => finish_of_error (le16encode_outOfRange hv) s, rfl⟩
  obtain ⟨low, high, rfl⟩ := exists_bytes_of_word ⟨h0, hmax⟩
  have hlow := low.isLt
  exact ⟨low, high, finish_of_ok (le16encode_bytes low high) s, by omega, by omega⟩

theorem checkLeByte_ok {f : Field} {v w : Int} : checkLeByte f v = .ok w ↔ (0 ≤ v ∧ v ≤ 0xFF) ∧ v = w := by
  rw [checkLeByte, ← isByte_iff]
  cases isByte v <;> simp

theorem checkLeByte_error {f : Field} {v : Int} {e : ErrorRecord} :
    checkLeByte f v = .error e ↔ (v < 0 ∨ 0xFF < v) ∧ ⟨.vLeByte, ⟨f, .int v, .range 0x00 0xFF⟩⟩ = e := by
  have hbyte : isByte v = false ↔ v < 0 ∨ 0xFF < v := by
    rw [Bool.eq_false_iff, Ne, isByte_iff]
    omega
  rw [checkLeByte, ← hbyte]
  cases isByte v <;> simp

/-- With both type checks passed, LE16DEC is its two range checks and the sum. -/
theorem le16decode_ints (l h : Int) : le16decode (.int l) (.int h) = (do
    let l ← checkLeByte .low l
    let h ← checkLeByte .high h
    return .value (l + 256 * h)) := rfl

theorem le16decode_bytes (low high : Byte) :
    le16decode (byteOperand low) (byteOperand high) = .ok (.value (low.toNat + 256 * high.toNat)) := by
  have hl := low.isLt
  have hh := high.isLt
  rw [byteOperand, byteOperand, le16decode_ints]
  exact bind_ok.2 ⟨_, checkLeByte_ok.2 ⟨by omega, rfl⟩, bind_ok.2 ⟨_, checkLeByte_ok.2 ⟨by omega, rfl⟩, rfl⟩⟩

theorem le16decode_lowOutOfRange {v : Int} (w : Int) (hv : v < 0 ∨ 0xFF < v) :
    le16decode (.int v) (.int w) = .error ⟨.vLeByte, ⟨.low, .int v, .range 0x00 0xFF⟩⟩ :=
  (le16decode_ints v w).trans (bind_error.2 (.inl (checkLeByte_error.2 ⟨hv, rfl⟩)))

theorem le16decode_highOutOfRange {v w : Int} (hv : 0 ≤ v ∧ v ≤ 0xFF) (hw : w < 0 ∨ 0xFF < w) :
    le16decode (.int v) (.int w) = .error ⟨.vLeByte, ⟨.high, .int w, .range 0x00 0xFF⟩⟩ :=
  (le16decode_ints v w).trans
    (bind_error.2 (.inr ⟨v, checkLeByte_ok.2 ⟨hv, rfl⟩, bind_error.2 (.inl (checkLeByte_error.2 ⟨hw, rfl⟩))⟩))

/-- Settles O50: the sum of two bytes, and the four checks in their order; a failed type check ends the command before any
value is looked at. -/
theorem le16decResult : Obligations.Le16decResult := fun s =>
  ⟨fun l h => finish_of_ok (le16decode_bytes l h) s, fun _ => rfl, fun _ => rfl,
    fun _ w hv => finish_of_error (le16decode_lowOutOfRange w hv) s,
    fun _ _ h0 hmax hw => finish_of_error (le16decode_highOutOfRange ⟨h0, hmax⟩ hw) s⟩

/-- Settles O51: both commands are the two directions of `v = low + 256 * high`. -/
theorem le16RoundTrip : Obligations.Le16RoundTrip := by
  refine fun s => ⟨fun v h0 hmax => ?_, fun l h => ?_⟩
  · obtain ⟨low, high, rfl⟩ := exists_bytes_of_word ⟨h0, hmax⟩
    exact ⟨_, low, high, finish_of_ok (le16encode_bytes low high) s, rfl, finish_of_ok (le16decode_bytes low high) _⟩
  · exact ⟨_, _, finish_of_ok (le16decode_bytes l h) s, rfl, finish_of_ok (le16encode_bytes l h) _⟩

/-! ## HEXSTR's checks (R155) -/

/-- HEXSTR returns a text for bytes alone, and the text is their joined tokens. -/
theorem hexText_items_ok {xs : List Operand} {r : Result} :
    hexText (.items xs) = .ok r ↔
      ∃ bs : List Byte, xs = bs.map byteOperand ∧ .text (joinComma (bs.map hexToken)) = r := by
  constructor
  · intro h
    obtain ⟨_, hitems, h⟩ := bind_ok.1 h
    obtain rfl := Except.ok.inj hitems
    obtain ⟨vs, hvs, htext⟩ := bind_ok.1 h
    obtain ⟨_, hbs, htext⟩ := bind_ok.1 htext
    obtain ⟨hbyte, rfl⟩ := requireBytes_ok.1 hbs
    refine ⟨vs.map toByte, ?_, pure_ok.1 htext⟩
    rw [requireInts_ok.1 hvs, List.map_map]
    refine List.map_congr_left fun v hv => ?_
    rw [Function.comp_apply, byteOperand, toByte_toNat (hbyte v hv)]
  · rintro ⟨bs, rfl, rfl⟩
    have hints : bs.map byteOperand = (bs.map fun b => (b.toNat : Int)).map .int := by
      simp [byteOperand, Function.comp_def]
    have hbyte : ∀ v ∈ bs.map fun b => (b.toNat : Int), 0 ≤ v ∧ v ≤ 255 := by
      intro v hv
      obtain ⟨b, -, rfl⟩ := List.mem_map.1 hv
      have := b.isLt
      omega
    have hbytes : (bs.map fun b => (b.toNat : Int)).map toByte = bs := by simp [Function.comp_def]
    exact bind_ok.2 ⟨_, rfl, bind_ok.2 ⟨_, requireInts_ok.2 hints,
      bind_ok.2 ⟨bs, requireBytes_ok.2 ⟨hbyte, hbytes⟩, rfl⟩⟩⟩

theorem hexText_bytes (bs : List Byte) :
    hexText (.items (bs.map byteOperand)) = .ok (.text (joinComma (bs.map hexToken))) :=
  hexText_items_ok.2 ⟨bs, rfl, rfl⟩

/-- The type check of the items fails at the first `nonint`, before any range check. -/
theorem hexText_nonint (vs : List Int) (rest : List Operand) :
    hexText (.items (vs.map .int ++ .nonint :: rest)) =
      .error ⟨.tHexItem, ⟨.inputItem vs.length, .nonInteger, .integer⟩⟩ :=
  bind_error.2 (.inr ⟨_, rfl, bind_error.2 (.inl (requireInts_error.2 ⟨vs, rest, rfl, by rw [Nat.zero_add]⟩))⟩)

theorem hexText_offending {vs : List Int} (h : offending vs ≠ []) :
    hexText (.items (vs.map .int)) = .error ⟨.vHexByte, ⟨.input, .ints (offending vs), .range 0x00 0xFF⟩⟩ :=
  bind_error.2 (.inr ⟨_, rfl, bind_error.2 (.inr ⟨vs, requireInts_ok.2 rfl,
    bind_error.2 (.inl (requireBytes_error.2 ⟨h, rfl⟩))⟩)⟩)

theorem offending_ne_nil {vs : List Int} (h : ∃ v ∈ vs, v < 0x00 ∨ 0xFF < v) : offending vs ≠ [] := by
  obtain ⟨v, hmem, hv⟩ := h
  intro hnil
  have := offending_eq_nil.1 hnil v hmem
  omega

/-- The byte check fails with all values out of range. -/
theorem exec_hexstr_offending {vs : List Int} (h : ∃ v ∈ vs, v < 0x00 ∨ 0xFF < v) (s : State) :
    exec (.hexstr (.items (vs.map .int))) s = .next (s.raise ⟨.vHexByte, ⟨.input,
      .ints (vs.filter (fun v => decide (v < 0x00) || decide (0xFF < v))), .range 0x00 0xFF⟩⟩) := by
  rw [← offending_eq_filter]
  exact finish_of_error (hexText_offending (offending_ne_nil h)) s

/-- A single integer is the sequence of one item: "`[x]` if x is a single int". -/
theorem exec_hexstr_one_int (v : Int) (s : State) :
    exec (.hexstr (.one (.int v))) s = exec (.hexstr (.items ([v].map .int))) s := rfl

/-- Settles O53: the three checks in their turn; the single integer is the sequence of one item. -/
theorem hexstrErrors : Obligations.HexstrErrors := by
  refine fun s => ⟨rfl, fun vs rest => finish_of_error (hexText_nonint vs rest) s,
    fun vs hvs => exec_hexstr_offending hvs s, fun v hv => ?_⟩
  have hall : [v].filter (fun v => decide (v < 0x00) || decide (0xFF < v)) = [v] := by simpa using hv
  rw [exec_hexstr_one_int, exec_hexstr_offending ⟨v, List.mem_singleton_self v, hv⟩, hall]

/-! ## HEXSTR's text (R155, R156) -/

theorem hexDigit_eq_digitChar {d : Nat} (h : d < 16) : hexDigit d = Nat.digitChar d := by
  interval_cases d <;> rfl

theorem hexToken_eq (b : Byte) : hexToken b = [Nat.digitChar (b.toNat / 16), Nat.digitChar (b.toNat % 16)] := by
  have := b.isLt
  rw [hexToken, hexDigit_eq_digitChar (by omega), hexDigit_eq_digitChar (by omega)]

theorem joinComma_eq_intercalate (ts : List (List Char)) : joinComma ts = List.intercalate [','] ts := by
  fun_induction joinComma ts with
  | case1 => rfl
  | case2 t => simp
  | case3 t u ts ih => simp [ih, List.intercalate_cons_cons]

/-- Settles O52: the model's tokens and separator are the library's; a single integer is the sequence of one item. -/
theorem hexstrText : Obligations.HexstrText := by
  refine fun s bs b => ⟨?_, ?_⟩
  · rw [← funext hexToken_eq, ← joinComma_eq_intercalate]
    exact finish_of_ok (hexText_bytes bs) s
  · rw [← hexToken_eq]
    exact (exec_hexstr_one_int b.toNat s).trans (finish_of_ok (hexText_bytes [b]) s)

theorem joinComma_tokens_length (bs : List Byte) : (joinComma (bs.map hexToken)).length = 3 * bs.length - 1 := by
  induction bs with
  | nil => rfl
  | cons b bs ih =>
    cases bs with
    | nil => rfl
    | cons c cs =>
      have hcons : joinComma ((b :: c :: cs).map hexToken) =
          hexToken b ++ ',' :: joinComma ((c :: cs).map hexToken) := rfl
      have htoken : (hexToken b).length = 2 := rfl
      rw [hcons, List.length_append, List.length_cons, ih, htoken]
      simp only [List.length_cons]
      omega

theorem mem_joinComma {ch : Char} {ts : List (List Char)} (h : ch ∈ joinComma ts) : ch = ',' ∨ ∃ t ∈ ts, ch ∈ t := by
  fun_induction joinComma ts with
  | case1 => simp at h
  | case2 t => exact .inr ⟨t, by simp, h⟩
  | case3 t u ts ih =>
    obtain ht | hts := List.mem_append.1 h
    · exact .inr ⟨t, by simp, ht⟩
    · obtain rfl | hts := List.mem_cons.1 hts
      · exact .inl rfl
      · exact (ih hts).imp_right fun ⟨w, hw, hch⟩ => ⟨w, List.mem_cons_of_mem t hw, hch⟩

theorem hexDigit_mem (d : Nat) : hexDigit d ∈ hexDigits := by
  unfold hexDigit
  obtain h | h := Nat.lt_or_ge d hexDigits.length
  · rw [← List.getElem_eq_getD (h := h)]; exact List.getElem_mem h
  · rw [List.getD_eq_default _ _ h]; decide

/-- Settles O54: tokens of two characters with a comma between them, over the sixteen digits and the comma. -/
theorem hexstrCharacters : Obligations.HexstrCharacters := by
  intro s t xs cs h hcs
  obtain ⟨bs, rfl, htext⟩ := hexText_items_ok.1 (ok_of_finish_success h hcs)
  obtain rfl := Result.text.inj htext
  refine ⟨by rw [joinComma_tokens_length, List.length_map], fun ch hch => ?_⟩
  change ch ∈ hexDigits ++ [',']
  obtain rfl | ⟨tok, htok, hch⟩ := mem_joinComma hch
  · simp
  · obtain ⟨b, -, rfl⟩ := List.mem_map.1 htok
    simp only [hexToken, List.mem_cons, List.not_mem_nil, or_false] at hch
    obtain rfl | rfl := hch <;> exact List.mem_append_left _ (hexDigit_mem _)

end Sys2Proof.Machine
end

section
/-! PROOFS. The status frame decoder: which check rejects a sequence (43_status_decode.md R171 to R176), and which
corruptions the checks detect (R180). -/

namespace Sys2Proof.Machine

/-! ## The first check that fails -/

/-- Which of checks 1 to 6 fails first, and what it raises. -/
theorem parseFrame_error {c : Config} {B : List Byte} {e : ErrorRecord} :
    parseFrame c B = .error e ↔
    (B.length < 6 ∧ ⟨.vRxShort, ⟨.frame, .int B.length, .atLeast 6⟩⟩ = e) ∨
    6 ≤ B.length ∧ ((¬ (byteAt B 0 = 0xFF#8 ∧ byteAt B 1 = 0xFF#8) ∧
        ⟨.vRxHeader, ⟨.header, .bytePair (byteAt B 0) (byteAt B 1), .bytePair 0xFF#8 0xFF#8⟩⟩ = e) ∨
      (byteAt B 0 = 0xFF#8 ∧ byteAt B 1 = 0xFF#8) ∧ (((byteAt B 3).toNat ≠ B.length - 4 ∧
          ⟨.vRxLength, ⟨.length, .int (byteAt B 3).toNat, .exactly (B.length - 4 : Nat)⟩⟩ = e) ∨
        (byteAt B 3).toNat = B.length - 4 ∧ ((c.maxParams < B.length - 6 ∧
            ⟨.vRxCount, ⟨.parameters, .int (B.length - 6 : Nat), .range 0 c.maxParams⟩⟩ = e) ∨
          B.length - 6 ≤ c.maxParams ∧
            ((byteAt B (B.length - 1) ≠ cksum (byteAt B 2) (byteAt B 4) (paramsOf B) ∧
              ⟨.vRxChecksum, ⟨.checksum, .int (byteAt B (B.length - 1)).toNat,
                .exactly (cksum (byteAt B 2) (byteAt B 4) (paramsOf B)).toNat⟩⟩ = e) ∨
            byteAt B (B.length - 1) = cksum (byteAt B 2) (byteAt B 4) (paramsOf B) ∧
              0xFE < (byteAt B 2).toNat ∧
                ⟨.vRxId, ⟨.id, .int (byteAt B 2).toNat, .range 0x00 0xFE⟩⟩ = e)))) := by
  simp only [parseFrame, bind_error, require_error, require_ok, pure_error, exists_const, and_false, or_false,
    decide_eq_true_eq, Bool.and_eq_true, ← Bool.not_eq_true, beq_iff_eq, Nat.not_le]
  rfl

/-- PARSE on this hardware delivers the error of the first check that fails, and changes nothing else (R170). -/
theorem exec_parse_of_error {B : List Byte} {e : ErrorRecord} (h : parseFrame Config.standard B = .error e)
    (s : State) : exec (.parse B) s = .next (s.deliver (.error e)) := by
  rw [exec, execParse, parseWith, h]
  rfl

/-- Settles O43: check 2 fails after check 1 has passed. -/
theorem parseRejectsWrongHeader : Obligations.ParseRejectsWrongHeader := by
  intro s b0 b1 B hlen hne
  have h6 : 6 ≤ (b0 :: b1 :: B).length := Nat.add_le_add_right hlen 2
  exact exec_parse_of_error (parseFrame_error.2 (.inr ⟨h6, .inl ⟨not_and_or.2 hne, rfl⟩⟩)) s

/-- Check 3 (R173): the LENGTH byte does not count the bytes after it. -/
theorem parseFrame_rxLength (c : Config) (id : Byte) {len : Byte} {B : List Byte} (h2 : 2 ≤ B.length)
    (hne : len.toNat ≠ B.length) :
    parseFrame c (0xFF#8 :: 0xFF#8 :: id :: len :: B) =
      .error ⟨.vRxLength, ⟨.length, .int len.toNat, .exactly B.length⟩⟩ := by
  have h6 : 6 ≤ (0xFF#8 :: 0xFF#8 :: id :: len :: B).length := Nat.add_le_add_right h2 4
  exact parseFrame_error.2 (.inr ⟨h6, .inr ⟨⟨rfl, rfl⟩, .inl ⟨hne, rfl⟩⟩⟩)

/-- Settles O44: check 3, which no LENGTH byte below 2 and no sequence longer than `255 + 4` bytes can pass. -/
theorem parseRejectsInconsistentLength : Obligations.ParseRejectsInconsistentLength := by
  intro s id len B h2
  refine ⟨fun hne => exec_parse_of_error (parseFrame_rxLength _ id h2 hne) s, fun hbound => ?_⟩
  have hne : len.toNat ≠ B.length := by
    have := len.isLt
    omega
  exact ⟨_, exec_parse_of_error (parseFrame_rxLength _ id h2 hne) s⟩

/-- Check 6 (R176, D16): a frame within the ceiling passes checks 1 to 5, and ID 0xFF alone is reserved. -/
theorem parseFrame_rxId {c : Config} (hc : c.Legal) (eb : Byte) {ps : List Byte} (hn : ps.length ≤ c.maxParams) :
    parseFrame c (frameOf 0xFF#8 eb ps) = .error ⟨.vRxId, ⟨.id, .int 0xFF, .range 0x00 0xFE⟩⟩ := by
  obtain ⟨h0, h1, h2, h3, h4, hps, hck⟩ := frameOf_fields 0xFF#8 eb ps
  rw [parseFrame_error, frameOf_length, h0, h1, h2, h3, h4, hps, lengthByte_toNat (hn.trans hc)]
  exact .inr ⟨by omega, .inr ⟨⟨rfl, rfl⟩, .inr ⟨by omega, .inr ⟨by omega, .inr ⟨hck, by decide, rfl⟩⟩⟩⟩⟩

/-- Settles O46: check 1 before every other, check 4 before the checksum, check 6 after it. -/
theorem parseRejectsShortLongAndReservedId : Obligations.ParseRejectsShortLongAndReservedId := fun s =>
  ⟨fun _ hshort => exec_parse_of_error (parseFrame_error.2 (.inl ⟨hshort, rfl⟩)) s,
    fun id eb ck _ hn hlen => exec_parse_of_error (parseFrame_tooManyParams id eb ck hn hlen) s,
    fun eb _ hn => exec_parse_of_error (parseFrame_rxId standard_legal eb hn) s⟩

/-! ## The checksum as a sum (R175) -/

/-- A byte is the checksum exactly when it completes the sum to 0xFF modulo 256. -/
theorem eq_cksum_iff {id eb ck : Byte} {ps : List Byte} :
    ck = cksum id eb ps ↔ (checksumSum id eb ps + ck.toNat) % 256 = 0xFF := by
  have hck := ck.isLt
  rw [← BitVec.toNat_inj, cksum_toNat]
  omega

/-- Check 5 (R175) on a sequence whose LENGTH is consistent and whose count is within the ceiling. -/
theorem parseFrame_rxChecksum {c : Config} (hc : c.Legal) {id eb ck : Byte} {ps : List Byte}
    (hn : ps.length ≤ c.maxParams) (hne : ck ≠ cksum id eb ps) :
    parseFrame c ([0xFF#8, 0xFF#8, id, BitVec.ofNat 8 (ps.length + 2), eb] ++ ps ++ [ck]) =
      .error ⟨.vRxChecksum, ⟨.checksum, .int ck.toNat, .exactly (cksum id eb ps).toNat⟩⟩ := by
  generalize hB : [0xFF#8, 0xFF#8, id, BitVec.ofNat 8 (ps.length + 2), eb] ++ ps ++ [ck] = B
  have hsize : B.length = ps.length + 6 := by simp [← hB]
  have h0 : byteAt B 0 = 0xFF#8 := by rw [← hB]; rfl
  have h1 : byteAt B 1 = 0xFF#8 := by rw [← hB]; rfl
  have h2 : byteAt B 2 = id := by rw [← hB]; rfl
  have h3 : (byteAt B 3).toNat = ps.length + 2 := by rw [← hB]; exact lengthByte_toNat (hn.trans hc)
  have h4 : byteAt B 4 = eb := by rw [← hB]; rfl
  have hps : paramsOf B = ps := by rw [paramsOf, hsize, ← hB]; simp [Config.frameOverhead]
  have hlast : byteAt B (ps.length + 6 - 1) = ck := by rw [← hB]; simp [byteAt, List.getD_eq_getElem?_getD]
  rw [parseFrame_error, hsize, h0, h1, h2, h3, h4, hps, hlast]
  exact .inr ⟨by omega, .inr ⟨⟨rfl, rfl⟩, .inr ⟨by omega, .inr ⟨by omega, .inl ⟨hne, rfl⟩⟩⟩⟩⟩

/-- Settles O45: check 5, and the checksum by its sum. -/
theorem parseRejectsChecksumMismatch : Obligations.ParseRejectsChecksumMismatch := fun s _ _ _ _ hn =>
  ⟨fun hne => exec_parse_of_error (parseFrame_rxChecksum standard_legal hn hne) s, eq_cksum_iff⟩

/-! ## What the checks detect and miss (R180) -/

/-- The bytes from ID to CHECKSUM of a sequence that passes checks 1, 3 and 5 add up to 0xFF modulo 256. -/
theorem sumBytes_drop_two_mod {B : List Byte} (h6 : 6 ≤ B.length) (h3 : (byteAt B 3).toNat = B.length - 4)
    (hck : byteAt B (B.length - 1) = cksum (byteAt B 2) (byteAt B 4) (paramsOf B)) :
    sumBytes (B.drop 2) % 256 = 0xFF := by
  have hsum : sumBytes (B.drop 2) =
      checksumSum (byteAt B 2) (byteAt B 4) (paramsOf B) + (byteAt B (B.length - 1)).toNat := by
    have hlength : lengthOf (paramsOf B) = (byteAt B 3).toNat := by
      rw [lengthOf, paramsOf_length h6, Config.lengthBias]
      omega
    rw [checksumSum, hlength]
    conv_lhs => rw [eq_fields_of_six_le_length h6]
    simp [sumBytes, Nat.add_assoc]
  rw [hsum]
  exact eq_cksum_iff.1 hck

/-- Replacing one byte changes the sum by the difference of the two bytes. -/
theorem sumBytes_set {L : List Byte} {j : Nat} (hj : j < L.length) (b : Byte) :
    sumBytes (L.set j b) + L[j].toNat = sumBytes L + b.toNat := by
  induction L generalizing j with
  | nil => exact absurd hj (Nat.not_lt_zero j)
  | cons p ps ih =>
    cases j with
    | zero => simp only [List.set_cons_zero, sumBytes_cons, List.getElem_cons_zero]; omega
    | succ j =>
      have := ih (Nat.lt_of_succ_lt_succ hj)
      simp only [List.set_cons_succ, sumBytes_cons, List.getElem_cons_succ]
      omega

/-- A changed byte changes the sum modulo 256: two bytes that differ do so by less than 256. -/
theorem sumBytes_set_mod_ne {L : List Byte} {j : Nat} {b : Byte} (hj : j < L.length) (hb : L[j]? ≠ some b) :
    sumBytes (L.set j b) % 256 ≠ sumBytes L % 256 := by
  have hset := sumBytes_set hj b
  have hne : L[j].toNat ≠ b.toNat := fun h =>
    hb (by rw [List.getElem?_eq_getElem hj, BitVec.eq_of_toNat_eq h])
  have hold := L[j].isLt
  have hnew := b.isLt
  omega

theorem byteAt_set_of_ne {B : List Byte} {k j : Nat} (h : k ≠ j) (b : Byte) : byteAt (B.set k b) j = byteAt B j := by
  simp [byteAt, List.getD_eq_getElem?_getD, List.getElem?_set_ne h]

/-- A change of one byte behind the header of an accepted sequence fails check 3 or check 5 (R180): passing both would
keep the sum of the bytes modulo 256. -/
theorem parseFrame_set_error {c : Config} {B : List Byte} {p : Parsed} {k : Nat} {b : Byte}
    (h : parseFrame c B = .ok p) (h2k : 2 ≤ k) (hk : k < B.length) (hb : B[k]? ≠ some b) :
    ∃ e, parseFrame c (B.set k b) = .error e ∧ (e.cause = .vRxLength ∨ e.cause = .vRxChecksum) := by
  obtain ⟨h6, h0, h1, h3, hn, hck, -, -⟩ := parseFrame_ok.1 h
  have hsize : (B.set k b).length = B.length := List.length_set
  have h0' : byteAt (B.set k b) 0 = 0xFF#8 := by rw [byteAt_set_of_ne (by omega), h0]
  have h1' : byteAt (B.set k b) 1 = 0xFF#8 := by rw [byteAt_set_of_ne (by omega), h1]
  by_cases h3' : (byteAt (B.set k b) 3).toNat = (B.set k b).length - 4
  · have hck' : byteAt (B.set k b) ((B.set k b).length - 1) ≠
        cksum (byteAt (B.set k b) 2) (byteAt (B.set k b) 4) (paramsOf (B.set k b)) := by
      intro hck'
      have hsum' := sumBytes_drop_two_mod (hsize ▸ h6) h3' hck'
      have hold : (B.drop 2)[k - 2]? ≠ some b := by rwa [List.getElem?_drop, Nat.add_sub_cancel' h2k]
      have hj : k - 2 < (B.drop 2).length := by rw [List.length_drop]; omega
      rw [List.drop_set, if_neg (Nat.not_lt.2 h2k), ← sumBytes_drop_two_mod h6 h3 hck] at hsum'
      exact sumBytes_set_mod_ne hj hold hsum'
    exact ⟨_, parseFrame_error.2 (.inr ⟨hsize ▸ h6, .inr ⟨⟨h0', h1'⟩, .inr ⟨h3', .inr ⟨hsize ▸ hn,
      .inl ⟨hck', rfl⟩⟩⟩⟩⟩), .inr rfl⟩
  · exact ⟨_, parseFrame_error.2 (.inr ⟨hsize ▸ h6, .inr ⟨⟨h0', h1'⟩, .inl ⟨h3', rfl⟩⟩⟩), .inl rfl⟩

/-- Settles O47: the error of the changed sequence is the outcome. -/
theorem parseDetectsSingleCorruption : Obligations.ParseDetectsSingleCorruption := by
  intro s B p k b h h2k hk hb
  obtain ⟨e, he, hcause⟩ := parseFrame_set_error h h2k hk hb
  exact ⟨_, e, exec_parse_of_error he s, rfl, hcause⟩

/-- Settles O48: a frame's checksum is also the checksum of its parameters in any other order (R102). -/
theorem parseMissesReordering : Obligations.ParseMissesReordering := by
  intro s id eb ps qs hperm hid hn
  rw [cksum_perm hperm, hperm.length_eq]
  rw [hperm.length_eq] at hn
  exact exec_parse_of_ok (parseFrame_frameOf standard_legal hid eb hn) s

end Sys2Proof.Machine
end

section
/-! PROOFS. The outcome of a command: which of the four kinds it has, and which causes with which kind an error has
(60_exceptions.md R190 to R198, R204). -/

namespace Sys2Proof.Machine

/-! ## The table of causes (R192) -/

/-- The causes in the order of R192's table. -/
def Cause.all : List Cause :=
  [.tId, .tInstr, .tParam, .vId, .vInstr, .vCount, .vParam, .vRxShort, .vRxHeader, .vRxLength, .vRxCount, .vRxChecksum,
    .vRxId, .tLeValue, .vLeRange, .tLeByte, .vLeByte, .tHexInput, .tHexItem, .vHexByte]

theorem cause_mem_all (a : Cause) : a ∈ Cause.all := by cases a <;> decide

theorem cause_codes_nodup : (Cause.all.map Cause.code).Nodup := by decide

theorem cause_kind_eq_typeError_iff (a : Cause) :
    a.kind = .typeError ↔ a ∈ [.tId, .tInstr, .tParam, .tLeValue, .tLeByte, .tHexInput, .tHexItem] := by
  cases a <;> decide

/-- Settles O57: the table lists every cause once, with no code twice. -/
theorem causeCodesAreDistinct : Obligations.CauseCodesAreDistinct :=
  ⟨fun a b h => List.inj_on_of_nodup_map cause_codes_nodup (cause_mem_all a) (cause_mem_all b) h,
    cause_kind_eq_typeError_iff⟩

/-! ## What is presented but no instruction (R85, R157, R198, R204) -/

theorem decodeWith_of_not_assigned {c : Config} {w : Command} (h : assigned c w.code = false) :
    decodeWith c w = .error .unknownCommand := by simp [decodeWith, h]

theorem not_assigned_code7 (c : Config) : assigned c 0b111#3 = false := rfl

theorem not_assigned_code6 {c : Config} (h : c.hasHexstr = false) : assigned c 0b110#3 = false := by
  simp [assigned, h]

/-- A command whose code the configuration does not assign is refused. -/
theorem stepWith_of_not_assigned {c : Config} {s : State} {cmd : Command} {rest : List HostEvent}
    (hc : assigned c cmd.code = false) (hs : s.host = .command cmd :: rest) :
    stepWith c s = .next (State.deliver { s with host := rest } (.refusal .unknownCommand)) := by
  simp [stepWith, carryOut, fetch, hs, decodeWith_of_not_assigned hc, undecoded]

/-- Settles O14: no configuration assigns code 7, and none without the formatter assigns code 6. -/
theorem unassignedCodeIsRefused : Obligations.UnassignedCodeIsRefused := fun s _ _ =>
  ⟨fun hs => (step_eq_stepWith s).trans (stepWith_of_not_assigned (not_assigned_code7 _) hs),
    fun _ hc hs => stepWith_of_not_assigned (not_assigned_code6 hc) hs⟩

/-- Settles O15: the step's equations for no event and for a command that does not decode. -/
theorem idleBlockHoldsItsState : Obligations.IdleBlockHoldsItsState := fun _ =>
  ⟨step_idle, fun _ _ hs hd => step_undecoded hs hd⟩

/-! ## Every instruction delivers an outcome (R190, R196) -/

/-- Settles O35: an instruction changes the outcome alone, or it is a BUILD that ends in success. -/
theorem errorWritesNoState : Obligations.ErrorWritesNoState := by
  intro i s t h hfail
  rcases exec_next h with ⟨o, rfl⟩ | ⟨-, r, m, rfl⟩
  · exact ⟨rfl, rfl, rfl, rfl, rfl, rfl, o, rfl⟩
  · exact absurd rfl (hfail .built)

/-! ## Types before values: what the checks of each command raise (R191, R192, R195) -/

/-- What the checks of a command answer on the tagged operands `xs`: they pass on integers alone; they raise one of the
command's causes, and a TypeError exactly when some operand is no integer. -/
def ChecksOperands {α : Type} (causes : List Cause) (xs : List Operand) : Except ErrorRecord α → Prop
  | .ok _ => .nonint ∉ xs
  | .error e => e.cause ∈ causes ∧ (e.cause.kind = .typeError ↔ .nonint ∈ xs)

section
variable {α : Type} {causes : List Cause} {xs : List Operand} {e : ErrorRecord}

theorem checksOperands_typeError (hcause : e.cause ∈ causes) (hkind : e.cause.kind = .typeError)
    (hmem : .nonint ∈ xs) : ChecksOperands (α := α) causes xs (.error e) :=
  ⟨hcause, iff_of_true hkind hmem⟩

theorem checksOperands_valueError (hcause : e.cause ∈ causes) (hkind : e.cause.kind = .valueError)
    (hints : .nonint ∉ xs) : ChecksOperands (α := α) causes xs (.error e) :=
  ⟨hcause, iff_of_false (by simp [hkind]) hints⟩

/-- The operands enter by whether all are integers. -/
theorem checksOperands_congr {ys : List Operand} {x : Except ErrorRecord α} (h : .nonint ∈ xs ↔ .nonint ∈ ys) :
    ChecksOperands causes xs x ↔ ChecksOperands causes ys x := by
  cases x <;> simp [ChecksOperands, h]

end

theorem nonint_not_mem_map_int (vs : List Int) : Operand.nonint ∉ vs.map .int := by simp

/-- The type checks of BUILD raise a TypeError, and only for an operand that is no integer (R121). -/
theorem checkTypes_error_typeError {id op : Operand} {ps : List Operand} {e : ErrorRecord}
    (h : checkTypes id op ps = .error e) :
    e.cause ∈ [.tId, .tInstr, .tParam] ∧ e.cause.kind = .typeError ∧ .nonint ∈ id :: op :: ps := by
  rcases checkTypes_error.1 h with ⟨rfl, rfl⟩ | ⟨i, -, ⟨rfl, rfl⟩ | ⟨v, -, vs, rest, rfl, rfl⟩⟩
  all_goals exact ⟨by simp, rfl, by simp⟩

/-- Checks 2 to 5 of BUILD raise a ValueError (R122 to R125). -/
theorem checkValues_error_valueError {c : Config} {i v : Int} {vs : List Int} {e : ErrorRecord}
    (h : checkValues c i v vs = .error e) :
    e.cause ∈ [.vId, .vInstr, .vCount, .vParam] ∧ e.cause.kind = .valueError := by
  rcases checkValues_error.1 h with ⟨-, rfl⟩ | ⟨-, ⟨-, rfl⟩ | ⟨o, -, ⟨-, rfl⟩ | ⟨-, -, rfl⟩⟩⟩
  all_goals exact ⟨by simp, rfl⟩

theorem buildChecks_checksOperands (c : Config) (id op : Operand) (ps : List Operand) :
    ChecksOperands (causesOf (.build id op ps)) (id :: op :: ps) (buildChecks c id op ps) := by
  have hcauses : causesOf (.build id op ps) = [.tId, .tInstr, .tParam] ++ [.vId, .vInstr, .vCount, .vParam] := rfl
  rw [hcauses]
  rcases buildChecks_cases c id op ps with ⟨e, he, hx⟩ | ⟨i, v, vs, rfl, rfl, rfl, hx⟩ <;> rw [hx]
  · obtain ⟨hcause, hkind, hmem⟩ := checkTypes_error_typeError he
    exact checksOperands_typeError (List.mem_append_left _ hcause) hkind hmem
  · have hints : Operand.nonint ∉ .int i :: .int v :: vs.map .int := nonint_not_mem_map_int (i :: v :: vs)
    cases hv : checkValues c i v vs with
    | ok r => exact hints
    | error e =>
      obtain ⟨hcause, hkind⟩ := checkValues_error_valueError hv
      exact checksOperands_valueError (List.mem_append_right _ hcause) hkind hints

/-- PARSE has no tagged operand, and each of its six checks raises a ValueError. -/
theorem parseFrame_checksOperands (c : Config) (B : List Byte) :
    ChecksOperands (causesOf (.parse B)) [] (parseFrame c B) := by
  cases h : parseFrame c B with
  | ok p => exact List.not_mem_nil
  | error e =>
    rcases parseFrame_error.1 h with ⟨-, rfl⟩ | ⟨-, ⟨-, rfl⟩ | ⟨-, ⟨-, rfl⟩ | ⟨-, ⟨-, rfl⟩ | ⟨-, ⟨-, rfl⟩ |
      ⟨-, -, rfl⟩⟩⟩⟩⟩
    all_goals exact checksOperands_valueError (by simp [causesOf]) rfl List.not_mem_nil

theorem le16encode_checksOperands (x : Operand) : ChecksOperands (causesOf (.le16enc x)) [x] (le16encode x) := by
  cases x with
  | nonint => exact checksOperands_typeError (by simp [causesOf]) rfl (by simp)
  | int v =>
    have hints : Operand.nonint ∉ [.int v] := nonint_not_mem_map_int [v]
    by_cases hv : 0 ≤ v ∧ v ≤ 0xFFFF
    · obtain ⟨low, high, rfl⟩ := exists_bytes_of_word hv
      rw [le16encode_bytes]
      exact hints
    · rw [le16encode_outOfRange (by omega)]
      exact checksOperands_valueError (by simp [causesOf]) rfl hints

/-- With both type checks passed, LE16DEC fails by a range check alone. -/
theorem le16decode_ints_error_cause {l h : Int} {e : ErrorRecord} (hx : le16decode (.int l) (.int h) = .error e) :
    e.cause = .vLeByte := by
  simp only [le16decode_ints, bind_error, pure_error, checkLeByte_error, and_false, exists_false, or_false] at hx
  obtain ⟨-, rfl⟩ | ⟨_, -, -, rfl⟩ := hx <;> rfl

theorem le16decode_checksOperands (x y : Operand) :
    ChecksOperands (causesOf (.le16dec x y)) [x, y] (le16decode x y) := by
  cases x with
  | nonint => exact checksOperands_typeError (by simp [causesOf]) rfl (by simp)
  | int l =>
    cases y with
    | nonint => exact checksOperands_typeError (by simp [causesOf]) rfl (by simp)
    | int h =>
      have hints : Operand.nonint ∉ [.int l, .int h] := nonint_not_mem_map_int [l, h]
      cases hx : le16decode (.int l) (.int h) with
      | ok r => exact hints
      | error e =>
        have hcause := le16decode_ints_error_cause hx
        exact checksOperands_valueError (by simp [hcause, causesOf]) (by rw [hcause]; rfl) hints

/-- Which check of HEXSTR's items fails first, and what it raises. -/
theorem hexText_items_error {xs : List Operand} {e : ErrorRecord} :
    hexText (.items xs) = .error e ↔
      (∃ (vs : List Int) (rest : List Operand), xs = vs.map .int ++ .nonint :: rest ∧
        ⟨.tHexItem, ⟨.inputItem vs.length, .nonInteger, .integer⟩⟩ = e) ∨
      ∃ vs : List Int, xs = vs.map .int ∧ offending vs ≠ [] ∧
        ⟨.vHexByte, ⟨.input, .ints (offending vs), .range 0x00 0xFF⟩⟩ = e := by
  simp only [hexText, hexItems, bind_error, pure_error, requireInts_ok, requireInts_error, requireBytes_error,
    Nat.zero_add, and_false, exists_false, or_false, Except.ok.injEq, reduceCtorEq, false_or, exists_eq_left']

theorem hexText_items_checksOperands (xs : List Operand) :
    ChecksOperands (causesOf (.hexstr (.items xs))) xs (hexText (.items xs)) := by
  cases hx : hexText (.items xs) with
  | ok r =>
    obtain ⟨bs, rfl, -⟩ := hexText_items_ok.1 hx
    simp [ChecksOperands, byteOperand]
  | error e =>
    rcases hexText_items_error.1 hx with ⟨vs, rest, rfl, rfl⟩ | ⟨vs, rfl, -, rfl⟩
    · exact checksOperands_typeError (by simp [causesOf]) rfl (by simp)
    · exact checksOperands_valueError (by simp [causesOf]) rfl (nonint_not_mem_map_int vs)

/-- A single operand of HEXSTR is `nonint`, or the sequence of one integer. -/
theorem hexText_checksOperands (x : HexInput) :
    ChecksOperands (causesOf (.hexstr x)) (operandsOf (.hexstr x)) (hexText x) := by
  match x with
  | .one .nonint => exact checksOperands_typeError (by simp [causesOf]) rfl (by simp [operandsOf])
  | .one (.int v) => exact hexText_items_checksOperands [.int v]
  | .items xs => exact hexText_items_checksOperands xs

/-! ## The outcome of an instruction, by what its checks answer (R190 to R192, R195) -/

/-- The outcome of a command whose checks answer `x`. -/
def CmdOutcome.ofChecks : Except ErrorRecord Result → CmdOutcome
  | .ok r => .success r
  | .error e => .error e

/-- The seven opcodes have BUILD's causes. -/
theorem causesOf_isBuild {i : Instr} (h : isBuild i = true) (id op : Operand) (ps : List Operand) :
    causesOf i = causesOf (.build id op ps) := by
  cases i with
  | ping | readData | writeData | regWrite | action | reset | syncWrite | build => rfl
  | toBytes | cksum | parse | le16enc | le16dec | hexstr => cases h

theorem checksOperands_map {α β : Type} {causes : List Cause} {xs : List Operand} {x : Except ErrorRecord α}
    (f : α → β) (h : ChecksOperands causes xs x) : ChecksOperands causes xs (x.map f) := by
  cases x with
  | ok a => exact h
  | error e => exact h

theorem finish_outcome {x : Except ErrorRecord Result} {s t : State} (h : finish s x = .next t) :
    t.outcome = some (.ofChecks x) := by
  cases x with
  | ok r => exact (Host.Outcome.next.inj h) ▸ rfl
  | error e => exact (Host.Outcome.next.inj h) ▸ rfl

theorem buildWith_outcome {c : Config} {id op : Operand} {ps : List Operand} {s t : State}
    (h : buildWith c id op ps s = .next t) :
    t.outcome = some (.ofChecks ((buildChecks c id op ps).map fun _ => .built)) := by
  rcases buildWith_next h with ⟨e, hx, rfl⟩ | ⟨r, m, hx, -, rfl⟩ <;> rw [hx] <;> rfl

/-- A BUILD by any of its spellings: an opcode as the `instruction` operand is an integer. -/
theorem exec_isBuild_outcome {i : Instr} {s t : State} (hb : isBuild i = true) (h : exec i s = .next t) :
    ∃ x, ChecksOperands (causesOf i) (operandsOf i) x ∧ t.outcome = some (.ofChecks x) := by
  obtain ⟨id, op, ps, -, hx, hops⟩ := exec_isBuild hb
  have hmem : Operand.nonint ∈ id :: op :: ps ↔ .nonint ∈ operandsOf i := by
    rcases hops with hops | ⟨hops, o, rfl⟩ <;> simp [hops]
  have hchecks := checksOperands_map (fun _ => Result.built) (buildChecks_checksOperands Config.standard id op ps)
  rw [← causesOf_isBuild hb id op ps, checksOperands_congr hmem] at hchecks
  exact ⟨_, hchecks, buildWith_outcome (hx s ▸ h)⟩

/-- Every instruction delivers what its checks answer, but for TOBYTES without a packet, which is refused. -/
theorem exec_outcome {i : Instr} {s t : State} (h : exec i s = .next t) :
    (i = .toBytes ∧ s.valid = false ∧ t.outcome = some (.refusal .noPacket)) ∨
    (¬ (i = .toBytes ∧ s.valid = false) ∧
      ∃ x, ChecksOperands (causesOf i) (operandsOf i) x ∧ t.outcome = some (.ofChecks x)) := by
  cases i with
  | toBytes =>
    rcases toBytesWith_next (c := Config.standard) h with ⟨hv, rfl⟩ | ⟨hv, rfl⟩
    · exact .inl ⟨rfl, hv, rfl⟩
    · exact .inr ⟨by simp [hv], .ok _, List.not_mem_nil, rfl⟩
  | cksum id ib ps => exact .inr ⟨by simp, .ok _, List.not_mem_nil, finish_outcome h⟩
  | parse B =>
    exact .inr ⟨by simp, _, checksOperands_map _ (parseFrame_checksOperands Config.standard B), finish_outcome h⟩
  | le16enc v => exact .inr ⟨by simp, _, le16encode_checksOperands v, finish_outcome h⟩
  | le16dec low high => exact .inr ⟨by simp, _, le16decode_checksOperands low high, finish_outcome h⟩
  | hexstr x => exact .inr ⟨by simp, _, hexText_checksOperands x, finish_outcome h⟩
  | ping | readData | writeData | regWrite | action | reset | syncWrite | build =>
    exact .inr ⟨by simp, exec_isBuild_outcome rfl h⟩

/-- Settles O55: every command checks all types before any value, and a refused command has no operand. -/
theorem typeErrorExactlyForNonIntegers : Obligations.TypeErrorExactlyForNonIntegers := by
  intro i s t h
  rcases exec_outcome h with ⟨rfl, -, ho⟩ | ⟨-, x, hx, ho⟩ <;> rw [ho]
  · simp [operandsOf]
  · cases x with
    | ok r => exact iff_of_false (by simp [CmdOutcome.ofChecks]) hx
    | error e => simpa [CmdOutcome.ofChecks] using hx.2

/-- Settles O56: an error is one that the command's checks raise. -/
theorem causesStayWithTheirCommand : Obligations.CausesStayWithTheirCommand := by
  intro i s t e h he
  rcases exec_outcome h with ⟨-, -, ho⟩ | ⟨-, x, hx, ho⟩ <;> rw [ho] at he
  · cases he
  · cases x with
    | ok r => cases he
    | error e' => cases he; exact hx.1

/-! ## Every instruction ends in exactly one of the four kinds (R190, R191) -/

theorem kindCode_ofChecks_lt_three (x : Except ErrorRecord Result) : (CmdOutcome.ofChecks x).kindCode < 3 := by
  cases x with
  | ok r => exact Nat.zero_lt_succ 2
  | error e => cases hk : e.cause.kind <;> simp [CmdOutcome.ofChecks, CmdOutcome.kindCode, hk]

/-- Settles O6: no instruction stops, what the checks answer is of kind 0, 1 or 2, and TOBYTES' refusal is of kind 3. -/
theorem everyInstructionEndsInAnOutcome : Obligations.EveryInstructionEndsInAnOutcome := by
  intro i s hs
  obtain ⟨t, ht⟩ := execWith_completes (c := Config.standard) (by decide) i hs
  rw [← exec_eq_execWith] at ht
  rcases exec_outcome ht with ⟨hi, hv, ho⟩ | ⟨hnot, x, -, ho⟩
  · exact ⟨t, _, ht, ho, le_rfl, iff_of_true rfl ⟨hi, hv⟩⟩
  · have hkind := kindCode_ofChecks_lt_three x
    exact ⟨t, _, ht, ho, hkind.le, iff_of_false hkind.ne hnot⟩

end Sys2Proof.Machine
end

section
/-! PROOFS. The words of the opcode table: what they decode to, and that a placed word runs next (30_encoding.md
sections 3 and 4). -/

namespace Sys2Proof.Machine

/-- A word of the table is an instruction exactly when it has a command and that command decodes. -/
theorem decodeTableWord_eq_some_iff {nbits w : Nat} {i : Instr} :
    decodeTableWord nbits w = some i ↔ ∃ cmd, tableCommand nbits w = some cmd ∧ decode cmd = .ok i := by
  cases hcmd : tableCommand nbits w with
  | none => simp [decodeTableWord, hcmd]
  | some cmd => cases hdec : decode cmd <;> simp [decodeTableWord, hcmd, hdec]

/-- Placing a word that has a command presents that command. -/
theorem withFetchWord_of_tableCommand {nbits w : Nat} {cmd : Command} (h : tableCommand nbits w = some cmd) (s : State) :
    s.withFetchWord nbits w = present s cmd := by
  simp [State.withFetchWord, h]

/-- A presented command that decodes runs next, in the state before it was presented. -/
theorem step_present {cmd : Command} {i : Instr} (h : decode cmd = .ok i) (s : State) :
    step (present s cmd) = exec i s :=
  step_decoded (present_host s cmd) h

/-- Settles O13: the word's command is presented first, and a step runs what it decodes to. -/
theorem stepRunsTableWord : Obligations.StepRunsTableWord := by
  intro s nbits w i h
  obtain ⟨cmd, hcmd, hdec⟩ := decodeTableWord_eq_some_iff.mp h
  rw [withFetchWord_of_tableCommand hcmd, step_present hdec]

end Sys2Proof.Machine
end
